-- ==== Sys2Proof/Word.lean ====
section
/-! DEFINITION. The widths of the SBV-BWU: its words, command words, port addresses and register numbers. -/

namespace Sys2Proof

/-- A 64-bit value: an operand register, a host port slot, or host port data (00_scope.md R9; 20_memory.md R41). -/
abbrev Word := BitVec 64

/-- A 32-bit command word (30_encoding.md R60). -/
abbrev Cmd := BitVec 32

/-- A host port address, 4 bits (20_memory.md R41). -/
abbrev PortAddr := BitVec 4

/-- The number of an operand register, `X0` to `X7` (10_state.md R21). -/
abbrev Reg := Fin 8

end Sys2Proof
end

