-- ==== Sys2Proof/Config.lean ====
section
/-! DEFINITION. What is fixed for the unit (00_scope.md R6), and the free values: constants without a body, about
which nothing can be proved but their type. -/

namespace Sys2Proof.Config

/-- Bits of a small block, an S-block (00_scope.md R6). -/
def S : Nat := 64

/-- Bits of a large block, an L-block (00_scope.md R6). -/
def L : Nat := 512

/-- S-blocks of an L-block, `L / S` (00_scope.md R6). -/
def R : Nat := L / S

/-- FREE VALUE (log entry 3). `SELW_OOR(a, b, c, inv)` of 42_select_in_word.md R91: the in-word position `SELW` or
`SELW0` adds to the base when its precondition fails. Unspecified but in [0,63], which the 6 bits say. `draw` counts
the host operations, so that two failing commands on equal operands need not agree. Safe for claims about one run. -/
opaque selwOor (draw : Nat) (a b c : Word) (inv : Bool) : BitVec 6

/-- FREE VALUE (log entry 8). What one read of an operand register yields while its contents are unspecified:
10_state.md R34, any bits, and not one value for a whole reset. `draw` counts the host operations and `operand` the reads
of one of them, so that no two reads need agree, not even two reads of one register by one command. `step` stops before such a read
(log entry 16); only `exec`, which answers for every state, takes this value. Safe for claims about one run. -/
opaque unspecifiedRead (draw : Nat) (operand : Fin 3) (r : Reg) : Word

end Sys2Proof.Config
end

