-- ==== Sys2Proof/Machine/State.lean ====
section
/-! DEFINITION. The state of the unit (10_state.md R20), the host operations still to come, the reasons a step can
stop, and the state after reset. -/

namespace Sys2Proof.Machine

/-- What the outside does to the unit: a host operation (20_memory.md R41) or a reset between two of them
(70_reset_and_hazards.md R160, R161). -/
inductive HostEvent where
  /-- `hwrite(a, d)` -/
  | hwrite (a : PortAddr) (d : Word)
  /-- `hread(a)` -/
  | hread (a : PortAddr)
  /-- the unit's one reset -/
  | reset
  deriving DecidableEq, Repr

/-- What an operand register's contents come from (10_state.md R33, R34; log entry 2). -/
inductive RegOrigin where
  /-- from `State.reset`, not written since: the value the model names there (log entry 1) -/
  | named
  /-- a host write or a command since the last reset -/
  | written
  /-- a reset event, not written since: the contents are unspecified, and a read is a fault (log entries 8 and 16) -/
  | unspecified
  deriving DecidableEq, Repr

/-- A read of an operand register not written since reset (10_state.md R34; 92_eei_decisions.md D29), as it goes on
record: the reads that `State.reset` names a value for, at which the machine does not stop (log entries 1 and 16). -/
structure ReadFault where
  /-- which host operation made the read, counted from 1 -/
  operation : Nat
  /-- the register read -/
  register : Reg
  deriving DecidableEq, Repr

/-- The state. The first three fields with `origin` describe the unit; `host` and `replies` are the two directions of
its port; `origin`, `draws` and `readFaults` are the model's own (log entries 2, 4 and 16). -/
structure State where
  /-- `X0` to `X7` (10_state.md R21) -/
  regs : Vector Word 8
  /-- `LASTCMD` (10_state.md R25) -/
  lastCmd : BitVec 32
  /-- `STATUS[3:0]`: `ILL`, `SELR`, `FOVF`, `HADR` from bit 0; bits 63:4 read as 0 (10_state.md R26) -/
  status : BitVec 4
  /-- the host operations still to come, oldest first (20_memory.md R51; log entry 5) -/
  host : List HostEvent
  /-- the data host reads have returned, newest first (20_memory.md R46; log entry 6) -/
  replies : List Word
  /-- MODEL'S OWN: where the contents of `X0` to `X7` come from (10_state.md R34; log entry 2) -/
  origin : Vector RegOrigin 8
  /-- MODEL'S OWN: how many host operations have been taken, which picks their free values (log entry 4) -/
  draws : Nat
  /-- MODEL'S OWN: every read of a register not written since reset that did not stop the machine, newest first; nothing
  clears it (10_state.md R34; log entry 16) -/
  readFaults : List ReadFault
  deriving DecidableEq, Repr

/-- The reasons a step stops with a fault. The unit itself never traps or stalls, and every condition is a STATUS bit
(60_exceptions.md R140; log entry 13); the one fault is the model's treatment of a read without a defined value. -/
inductive Fault where
  /-- Raised by `step`, for a host read or a command that reads an operand register a reset event has left unspecified
  and nothing has written since (10_state.md R34; 92_eei_decisions.md D29; 93_implementation_defined.md U3, U4, U16).
  Safe: the hardware may return any bits there, and the model claims nothing of what follows (log entry 16). -/
  | unspecifiedRead (register : Reg)
  deriving DecidableEq, Repr

/-- The reasons a command has no meaning. -/
inductive Refusal where
  /-- Raised by an arm of `exec` whose instruction is not modelled yet; no arm raises it now. Safe: the run ends. -/
  | notModelled (mnemonic : String)
  deriving DecidableEq, Repr

/-- The unit right after reset, before the host does anything: `LASTCMD = 0` and `STATUS = 0` (10_state.md R33). The
spec leaves `X0` to `X7` unspecified: DESIGN CHOICE 0, unsafe (log entry 1). -/
def State.reset : State where
  regs := Vector.replicate 8 0#64
  lastCmd := 0#32
  status := 0#4
  host := []
  replies := []
  origin := Vector.replicate 8 .named
  draws := 0
  readFaults := []

end Sys2Proof.Machine
end

