-- ==== Sys2Proof/Machine/Flags.lean ====
section
/-! DEFINITION. STATUS: the four sticky conditions, setting one, clearing, reading (10_state.md R26 to R28). `flag` is the
only form that raising anything takes in this unit (00_scope.md R11; 60_exceptions.md R140, R148). -/

namespace Sys2Proof.Machine

/-- The conditions of 10_state.md R26. -/
inductive Condition where
  /-- an illegal command word (60_exceptions.md R141) -/
  | ill
  /-- a select whose precondition failed (60_exceptions.md R142) -/
  | selr
  /-- a `RELSET` value too wide for its field (60_exceptions.md R143) -/
  | fovf
  /-- a host operation on a reserved port address (60_exceptions.md R144) -/
  | hadr
  deriving DecidableEq, Repr

/-- The STATUS bit of a condition (10_state.md R26). -/
def conditionBit : Condition → Nat
  | .ill => 0
  | .selr => 1
  | .fovf => 2
  | .hadr => 3

/-- STATUS with only the condition's bit set. -/
def conditionMask (c : Condition) : BitVec 4 := 1#4 <<< conditionBit c

/-- `flag B`: set a STATUS bit; a bit already 1 stays 1 (10_state.md R27). -/
def flag (c : Condition) (s : State) : State := { s with status := s.status ||| conditionMask c }

/-- A host write of `d` to STATUS clears the bits where `d` has a 1 (10_state.md R28). -/
def clearStatus (d : Word) (s : State) : State :=
  { s with status := s.status &&& ~~~(d.extractLsb' 0 4) }

/-- What a host read of STATUS returns, `zext_64(STATUS[3:0])` (10_state.md R28). -/
def statusWord (s : State) : Word := s.status.setWidth 64

end Sys2Proof.Machine
end

