-- ==== Sys2Proof/Machine/Ops.lean ====
section
/-! DEFINITION. The named operations on the operand registers and on the free values. The unit has no memory
(20_memory.md R40) and takes no exception (60_exceptions.md R140, R148): a condition is `flag` (Flags.lean), and a
command that meets one still completes through `commit`. -/

namespace Sys2Proof.Machine

/-- What `X[r]` holds (10_state.md R23). -/
def readReg (r : Reg) (s : State) : Word := s.regs[r]

/-- Where the contents of `X[r]` come from. -/
def originOf (r : Reg) (s : State) : RegOrigin := s.origin[r]

/-- Whether `X[r]` has been written since reset (10_state.md R34). -/
def isWritten (r : Reg) (s : State) : Bool := originOf r s == .written

/-- `X[r]`, read as the `operand`-th read of a host operation (00_scope.md R11): what it holds, or, while that is
unspecified, bits that no other read need yield (10_state.md R34; log entry 8). `step` stops before a read of the latter kind
(`readFault`). -/
def readSource (operand : Fin 3) (r : Reg) (s : State) : Word :=
  match originOf r s with
  | .named => readReg r s
  | .written => readReg r s
  | .unspecified => Config.unspecifiedRead s.draws operand r

/-- `a = X[rs1]` (00_scope.md R12). -/
def operandA (rs1 : Reg) (s : State) : Word := readSource 0 rs1 s

/-- `b = X[rs2]` (00_scope.md R12). -/
def operandB (rs2 : Reg) (s : State) : Word := readSource 1 rs2 s

/-- `c = X[rs3]` (00_scope.md R12). -/
def operandC (rs3 : Reg) (s : State) : Word := readSource 2 rs3 s

/-- `X[r] <- v` (00_scope.md R11; 10_state.md R23). -/
def writeReg (r : Reg) (v : Word) (s : State) : State :=
  { s with regs := s.regs.set r v, origin := s.origin.set r .written }

/-- Flag each condition in turn. -/
def flagAll (cs : List Condition) (s : State) : State := cs.foldl (fun t c => flag c t) s

/-- How a legal command ends: `X[rd] <- v; for each B in flags: flag B` (30_encoding.md R70). -/
def commit (rd : Reg) (v : Word) (cs : List Condition) (s : State) : State :=
  flagAll cs (writeReg rd v s)

/-- The next host operation has free values of its own. -/
def nextDraw (s : State) : State := { s with draws := s.draws + 1 }

/-- Reset inside a run (10_state.md R33; 70_reset_and_hazards.md R160): STATUS and LASTCMD are 0, the operand registers
are not cleared but what they hold is unspecified, so a read of one is a fault (R34; log entries 8 and 16). The host's operations and what it was told
stand. -/
def resetUnit (s : State) : State :=
  { s with
    origin := Vector.replicate 8 .unspecified
    lastCmd := 0#32
    status := 0#4 }

end Sys2Proof.Machine
end

