-- ==== Sys2Proof/Machine/Bits.lean ====
section
/-! DEFINITION. The primitives of 00_scope.md R8 to R11 on words. -/

namespace Sys2Proof.Machine

/-- The number of 1 bits among bits `0` to `n - 1` of `v`. -/
def popcountBelow {w : Nat} (v : BitVec w) : Nat → Nat
  | 0 => 0
  | n + 1 => popcountBelow v n + (v.getLsbD n).toNat

/-- `popcount(v)`: the number of 1 bits of `v` (00_scope.md R11). -/
def popcount {w : Nat} (v : BitVec w) : Nat := popcountBelow v w

/-- `ctz(v)`: the number of trailing zero bits of a nonzero `v`. No rule applies it to 0 (00_scope.md R11). -/
def ctz (v : Word) : Nat := ((List.range 64).find? fun i => v.getLsbD i).getD 64

/-- `mask(r) = (1 << r) - 1` (00_scope.md R11). -/
def mask (r : Nat) : Word := (1#64 <<< r) - 1#64

/-- `zext_64` of a number (00_scope.md R9). -/
def zext (n : Nat) : Word := BitVec.ofNat 64 n

/-- Byte lane `j` of a word, `v[8j+7:8j]` (00_scope.md R8). -/
def byteLane (v : Word) (j : Nat) : BitVec 8 := v.extractLsb' (8 * j) 8

end Sys2Proof.Machine
end

