-- ==== Sys2Proof/Machine/Operands.lean ====
section
/-! DEFINITION. The slices of a register operand that a command uses (30_encoding.md R62). Every other operand is used
whole, and no higher bit is looked at. -/

namespace Sys2Proof.Machine

/-- `r = b[5:0]`, the bit offset of `PCNTLO` and `PCNTLO0`. -/
def bitOffset (b : Word) : Nat := (b.extractLsb' 0 6).toNat

/-- `k = b[2:0]`, the field index of `RELGET`, `RELGET0` and `RELSET`. -/
def fieldIndex (b : Word) : Fin 8 := ⟨(b.extractLsb' 0 3).toNat, (b.extractLsb' 0 3).isLt⟩

/-- `a[7:0]`, the byte of `SELTAB`. -/
def tableByte (a : Word) : BitVec 8 := a.extractLsb' 0 8

/-- `b[2:0]`, the table row of `SELTAB`. -/
def tableIndex (b : Word) : Fin 8 := ⟨(b.extractLsb' 0 3).toNat, (b.extractLsb' 0 3).isLt⟩

end Sys2Proof.Machine
end

