-- ==== Sys2Proof/Machine/RankEntry.lean ====
section
/-! DEFINITION. The packed rel word of a rank entry (43_counter_index.md R104 to R108), the absolute counts, and the
comparison tree of select Phase C (R117). -/

namespace Sys2Proof.Machine

/-- `W_k`, the width of field `rel_k`; `rel_0` is not stored (43_counter_index.md R104). -/
def relWidth : Fin 8 → Nat
  | 0 => 0
  | 1 => 7
  | 2 => 8
  | 3 => 8
  | 4 => 9
  | 5 => 9
  | 6 => 9
  | 7 => 9

/-- `lsb_k`, the lowest bit of field `rel_k` (43_counter_index.md R104). -/
def relLsb : Fin 8 → Nat
  | 0 => 0
  | 1 => 0
  | 2 => 7
  | 3 => 15
  | 4 => 23
  | 5 => 32
  | 6 => 41
  | 7 => 50

/-- `zext_64(relfield(v, k))`: field `k`, and 0 for `k = 0` (43_counter_index.md R105). -/
def relField (v : Word) (k : Fin 8) : Word :=
  if k = 0 then 0#64 else (v >>> relLsb k) &&& mask (relWidth k)

/-- `64*k - relfield(v, k)` modulo 2^64, the count of 0 bits (43_counter_index.md R108, R111). -/
def relField0 (v : Word) (k : Fin 8) : Word := BitVec.ofNat 64 (64 * k.val) - relField v k

/-- `setfield(v, k, x)`: field `k` replaced by the low `W_k` bits of `x`, every other bit kept; `v` for `k = 0`
(43_counter_index.md R107). -/
def setField (v : Word) (k : Fin 8) (x : Word) : Word :=
  if k = 0 then v
  else (v &&& ~~~(mask (relWidth k) <<< relLsb k)) ||| ((x &&& mask (relWidth k)) <<< relLsb k)

/-- Whether `x` is too wide for field `k`: `k != 0 and x >> W_k != 0` (43_counter_index.md R112, R113). -/
def fieldOverflow (k : Fin 8) (x : Word) : Bool := k != 0 && (x >>> relWidth k) != 0#64

/-- `(rank_id << 9) - abs` modulo 2^64 (43_counter_index.md R108, R116). -/
def absZeros (abs rankId : Word) : Word := (rankId <<< 9) - abs

/-- `tree(T1..T7, q)`, the balanced comparison tree rooted at `T4`, with unsigned comparisons
(43_counter_index.md R117). -/
def phaseCTree (t : Fin 8 → Word) (q : Word) : Fin 8 :=
  if q < t 4 then
    if q < t 2 then (if q < t 1 then 0 else 1)
    else (if q < t 3 then 2 else 3)
  else
    if q < t 6 then (if q < t 5 then 4 else 5)
    else (if q < t 7 then 6 else 7)

end Sys2Proof.Machine
end

