-- ==== Sys2Proof/Machine/CounterIndex.lean ====
section
/-! DEFINITION. The packed counter array indexing family (43_counter_index.md R100 to R121). No invariant of a rank entry
is checked: every command is defined on every input (R109). -/

namespace Sys2Proof.Machine

/-- `LBLK`: `X[rd] <- a >> 9` (43_counter_index.md R100). -/
def execLblk (rd rs1 : Reg) (s : State) : Host.Outcome State Fault Refusal :=
  .next (commit rd (operandA rs1 s >>> 9) [] s)

/-- `SBLK`: `X[rd] <- a >> 6` (43_counter_index.md R101). -/
def execSblk (rd rs1 : Reg) (s : State) : Host.Outcome State Fault Refusal :=
  .next (commit rd (operandA rs1 s >>> 6) [] s)

/-- `SOFF`: `X[rd] <- a & 63` (43_counter_index.md R102). -/
def execSoff (rd rs1 : Reg) (s : State) : Host.Outcome State Fault Refusal :=
  .next (commit rd (operandA rs1 s &&& 63#64) [] s)

/-- `PHASE`: `X[rd] <- (a >> 6) & 7` (43_counter_index.md R103). -/
def execPhase (rd rs1 : Reg) (s : State) : Host.Outcome State Fault Refusal :=
  .next (commit rd ((operandA rs1 s >>> 6) &&& 7#64) [] s)

/-- `RELGET`: `k = b[2:0]; X[rd] <- relfield(a, k)` (43_counter_index.md R110). -/
def execRelget (rd rs1 rs2 : Reg) (s : State) : Host.Outcome State Fault Refusal :=
  .next (commit rd (relField (operandA rs1 s) (fieldIndex (operandB rs2 s))) [] s)

/-- `RELGET0`: `k = b[2:0]; X[rd] <- 64*k - relfield(a, k)` (43_counter_index.md R111). -/
def execRelget0 (rd rs1 rs2 : Reg) (s : State) : Host.Outcome State Fault Refusal :=
  .next (commit rd (relField0 (operandA rs1 s) (fieldIndex (operandB rs2 s))) [] s)

/-- `RELSET`: `k = b[2:0]; X[rd] <- setfield(a, k, c)`, and FOVF when `c` does not fit the field
(43_counter_index.md R112, R113). -/
def execRelset (rd rs1 rs2 rs3 : Reg) (s : State) : Host.Outcome State Fault Refusal :=
  .next (commit rd (setField (operandA rs1 s) (fieldIndex (operandB rs2 s)) (operandC rs3 s))
    (if fieldOverflow (fieldIndex (operandB rs2 s)) (operandC rs3 s) then [.fovf] else []) s)

/-- `SUBBLK`: `X[rd] <- tree(relfield(a, 1..7), b)` (43_counter_index.md R120). -/
def execSubblk (rd rs1 rs2 : Reg) (s : State) : Host.Outcome State Fault Refusal :=
  .next (commit rd (zext (phaseCTree (relField (operandA rs1 s)) (operandB rs2 s)).val) [] s)

/-- `SUBBLK0`: `X[rd] <- tree(64*k - relfield(a, k), b)` (43_counter_index.md R121). -/
def execSubblk0 (rd rs1 rs2 : Reg) (s : State) : Host.Outcome State Fault Refusal :=
  .next (commit rd (zext (phaseCTree (relField0 (operandA rs1 s)) (operandB rs2 s)).val) [] s)

/-- `ABSGET`, also `MOV`: `X[rd] <- a` (43_counter_index.md R115). -/
def execAbsget (rd rs1 : Reg) (s : State) : Host.Outcome State Fault Refusal :=
  .next (commit rd (operandA rs1 s) [] s)

/-- `ABSGET0`: `X[rd] <- (b << 9) - a` (43_counter_index.md R116). -/
def execAbsget0 (rd rs1 rs2 : Reg) (s : State) : Host.Outcome State Fault Refusal :=
  .next (commit rd (absZeros (operandA rs1 s) (operandB rs2 s)) [] s)

end Sys2Proof.Machine
end

