-- ==== Sys2Proof/Machine/Integer.lean ====
section
/-! DEFINITION. The integer support family (44_integer.md R135 to R137): arithmetic modulo 2^64, no flag. -/

namespace Sys2Proof.Machine

/-- `ADD`: `X[rd] <- a + b` (44_integer.md R135). -/
def execAdd (rd rs1 rs2 : Reg) (s : State) : Host.Outcome State Fault Refusal :=
  .next (commit rd (operandA rs1 s + operandB rs2 s) [] s)

/-- `SUB`: `X[rd] <- a - b` (44_integer.md R136). -/
def execSub (rd rs1 rs2 : Reg) (s : State) : Host.Outcome State Fault Refusal :=
  .next (commit rd (operandA rs1 s - operandB rs2 s) [] s)

end Sys2Proof.Machine
end

