-- ==== Sys2Proof/Machine/Popcount.lean ====
section
/-! DEFINITION. The population-count family (41_popcount.md R80 to R84). No command of it meets a condition. -/

namespace Sys2Proof.Machine

/-- `POPCNT`: `X[rd] <- popcount(a)` (41_popcount.md R81). -/
def execPopcnt (rd rs1 : Reg) (s : State) : Host.Outcome State Fault Refusal :=
  .next (commit rd (zext (popcount (operandA rs1 s))) [] s)

/-- `POPCNT0`: `X[rd] <- popcount(~a)` (41_popcount.md R82). -/
def execPopcnt0 (rd rs1 : Reg) (s : State) : Host.Outcome State Fault Refusal :=
  .next (commit rd (zext (popcount (~~~(operandA rs1 s)))) [] s)

/-- `PCNTLO`: `r = b[5:0]; X[rd] <- popcount(a & mask(r))` (41_popcount.md R83). -/
def execPcntlo (rd rs1 rs2 : Reg) (s : State) : Host.Outcome State Fault Refusal :=
  .next (commit rd (zext (popcount (operandA rs1 s &&& mask (bitOffset (operandB rs2 s))))) [] s)

/-- `PCNTLO0`: `r = b[5:0]; X[rd] <- popcount(~a & mask(r))` (41_popcount.md R84). -/
def execPcntlo0 (rd rs1 rs2 : Reg) (s : State) : Host.Outcome State Fault Refusal :=
  .next (commit rd (zext (popcount (~~~(operandA rs1 s) &&& mask (bitOffset (operandB rs2 s))))) [] s)

end Sys2Proof.Machine
end

