-- ==== Sys2Proof/Machine/SelectEngine.lean ====
section
/-! DEFINITION. The broadword select engine (42_select_in_word.md R85), its closed form (R87) and the select table
(R96). The engine computes the recipe's steps exactly; 90_conflicts.md C1 settles that the answer byte is the lowest one
whose high bit is SET. -/

namespace Sys2Proof.Machine

/-- `selectTable[i][b]`: the position of the `i`-th 1 bit of the byte `b`, or 7 if there is none
(42_select_in_word.md R96). A constant ROM (10_state.md R30). -/
def selectTable (i : Fin 8) (b : BitVec 8) : Fin 8 :=
  (([0, 1, 2, 3, 4, 5, 6, 7] : List (Fin 8)).find? fun m =>
    popcount (b &&& ((1#8 <<< (m.val + 1)) - 1#8)) == i.val + 1).getD 7

/-- Step 1, halves: each 2-bit lane becomes the count of its bits (42_select_in_word.md R85, R86). -/
def swarHalves (x : Word) : Word := x - ((x >>> 1) &&& 0x5555555555555555#64)

/-- Step 1, pairs: each 4-bit lane becomes the count of its bits. -/
def swarPairs (s : Word) : Word :=
  (s &&& 0x3333333333333333#64) + ((s >>> 2) &&& 0x3333333333333333#64)

/-- Step 1, nibbles: each byte becomes the count of its bits. -/
def swarNibbles (s : Word) : Word := (s + (s >>> 4)) &&& 0x0F0F0F0F0F0F0F0F#64

/-- Step 1, the multiply: byte `j` is the 1-count of bytes `0` to `j` of `x`. -/
def prefixCounts (x : Word) : Word :=
  swarNibbles (swarPairs (swarHalves x)) * 0x0101010101010101#64

/-- Step 2: the high bit of byte `j` is set exactly when byte `j` of `s` is at least `k + 1`. -/
def answerMask (s k : Word) : Word :=
  ((s ||| 0x8080808080808080#64) - (k + 1#64) * 0x0101010101010101#64) &&& 0x8080808080808080#64

/-- Step 2: the lowest byte whose high bit is set, `ctz(t) >> 3`. -/
def answerByte (s k : Word) : Nat := ctz (answerMask s k) >>> 3

/-- Step 3: the 1-count of the bytes below byte `j`. -/
def countBefore (s : Word) (j : Nat) : Word :=
  if j = 0 then 0#64 else (byteLane s (j - 1)).setWidth 64

/-- `selw_core(x, k)`, the recipe of 42_select_in_word.md R85. It has a meaning only when `k < popcount(x)`, and then
`k2 = k - p` is in [0,7] (log entry 12). -/
def selwCore (x k : Word) : Nat :=
  let s := prefixCounts x
  let j := answerByte s k
  let k2 := k - countBefore s j
  8 * j + (selectTable (tableIndex k2) (byteLane x j)).val

/-- The closed form of `selw_core` (42_select_in_word.md R87): the least `m` with `popcount(x & mask(m+1)) = k + 1`,
where there is one. -/
def selwClosed (x k : Word) : Option Nat :=
  (List.range 64).find? fun m => popcount (x &&& mask (m + 1)) == k.toNat + 1

end Sys2Proof.Machine
end

