-- ==== Sys2Proof/Machine/Select.lean ====
section
/-! DEFINITION. The select-within-word family (42_select_in_word.md R89 to R92). -/

namespace Sys2Proof.Machine

/-- What `SELW` and `SELW0` share (42_select_in_word.md R88 to R91). The engine works on `w`: `a`, or `~a` for the
0-form. If `b < popcount(w)`, all 64 bits of `b` compared, `X[rd] <- c + selw_core(w, b)`. Otherwise SELR is flagged
and `X[rd] <- c + p` with the free value `p = SELW_OOR(a, b, c, inv)` in [0,63] (log entry 3). -/
def selectInto (rd : Reg) (w a b c : Word) (inv : Bool) (s : State) : State :=
  if b.toNat < popcount w then commit rd (c + zext (selwCore w b)) [] s
  else commit rd (c + (Config.selwOor s.draws a b c inv).setWidth 64) [.selr] s

/-- `SELW`: the position of the `b`-th 1 bit of `a`, plus the base `c` (42_select_in_word.md R89). -/
def execSelw (rd rs1 rs2 rs3 : Reg) (s : State) : Host.Outcome State Fault Refusal :=
  .next (selectInto rd (operandA rs1 s) (operandA rs1 s) (operandB rs2 s) (operandC rs3 s) false s)

/-- `SELW0`: the position of the `b`-th 0 bit of `a`, plus the base `c` (42_select_in_word.md R90). -/
def execSelw0 (rd rs1 rs2 rs3 : Reg) (s : State) : Host.Outcome State Fault Refusal :=
  .next (selectInto rd (~~~(operandA rs1 s)) (operandA rs1 s) (operandB rs2 s) (operandC rs3 s) true s)

/-- `SELTAB`: `X[rd] <- selectTable[b[2:0]][a[7:0]]` (42_select_in_word.md R92). -/
def execSeltab (rd rs1 rs2 : Reg) (s : State) : Host.Outcome State Fault Refusal :=
  .next (commit rd
    (zext (selectTable (tableIndex (operandB rs2 s)) (tableByte (operandA rs1 s))).val) [] s)

end Sys2Proof.Machine
end

