-- ==== Sys2Proof/Syntax.lean ====
section
/-! DEFINITION. The commands of the SBV-BWU, one constructor per row of spec/opcode_table.json (30_encoding.md R63),
with its register fields in the order `rd`, `rs1`, `rs2`, `rs3` (30_encoding.md R71). -/

namespace Sys2Proof

/-- A legal command. `MOV Xd, Xs` is `absget d s` (30_encoding.md R73). -/
inductive Instr where
  /-- `POPCNT rd, rs1` (41_popcount.md R81) -/
  | popcnt (rd rs1 : Reg)
  /-- `POPCNT0 rd, rs1` (41_popcount.md R82) -/
  | popcnt0 (rd rs1 : Reg)
  /-- `PCNTLO rd, rs1, rs2` (41_popcount.md R83) -/
  | pcntlo (rd rs1 rs2 : Reg)
  /-- `PCNTLO0 rd, rs1, rs2` (41_popcount.md R84) -/
  | pcntlo0 (rd rs1 rs2 : Reg)
  /-- `SELW rd, rs1, rs2, rs3` (42_select_in_word.md R89) -/
  | selw (rd rs1 rs2 rs3 : Reg)
  /-- `SELW0 rd, rs1, rs2, rs3` (42_select_in_word.md R90) -/
  | selw0 (rd rs1 rs2 rs3 : Reg)
  /-- `SELTAB rd, rs1, rs2` (42_select_in_word.md R92) -/
  | seltab (rd rs1 rs2 : Reg)
  /-- `LBLK rd, rs1` (43_counter_index.md R100) -/
  | lblk (rd rs1 : Reg)
  /-- `SBLK rd, rs1` (43_counter_index.md R101) -/
  | sblk (rd rs1 : Reg)
  /-- `SOFF rd, rs1` (43_counter_index.md R102) -/
  | soff (rd rs1 : Reg)
  /-- `PHASE rd, rs1` (43_counter_index.md R103) -/
  | phase (rd rs1 : Reg)
  /-- `RELGET rd, rs1, rs2` (43_counter_index.md R110) -/
  | relget (rd rs1 rs2 : Reg)
  /-- `RELGET0 rd, rs1, rs2` (43_counter_index.md R111) -/
  | relget0 (rd rs1 rs2 : Reg)
  /-- `RELSET rd, rs1, rs2, rs3` (43_counter_index.md R112) -/
  | relset (rd rs1 rs2 rs3 : Reg)
  /-- `SUBBLK rd, rs1, rs2` (43_counter_index.md R120) -/
  | subblk (rd rs1 rs2 : Reg)
  /-- `SUBBLK0 rd, rs1, rs2` (43_counter_index.md R121) -/
  | subblk0 (rd rs1 rs2 : Reg)
  /-- `ABSGET rd, rs1` (43_counter_index.md R115) -/
  | absget (rd rs1 : Reg)
  /-- `ABSGET0 rd, rs1, rs2` (43_counter_index.md R116) -/
  | absget0 (rd rs1 rs2 : Reg)
  /-- `ADD rd, rs1, rs2` (44_integer.md R135) -/
  | add (rd rs1 rs2 : Reg)
  /-- `SUB rd, rs1, rs2` (44_integer.md R136) -/
  | sub (rd rs1 rs2 : Reg)
  deriving DecidableEq, Repr

end Sys2Proof
end

