-- ==== Sys2Proof/Machine/Dispatch.lean ====
section
/-! DEFINITION. `execute(w)` of 30_encoding.md R70 for a legal command, one arm per constructor. -/

namespace Sys2Proof.Machine

-- 30_encoding.md R70
def exec (i : Instr) (s : State) : Host.Outcome State Fault Refusal :=
  match i with
  | .popcnt rd rs1 => Sys2Proof.Machine.execPopcnt rd rs1 s
  | .popcnt0 rd rs1 => Sys2Proof.Machine.execPopcnt0 rd rs1 s
  | .pcntlo rd rs1 rs2 => Sys2Proof.Machine.execPcntlo rd rs1 rs2 s
  | .pcntlo0 rd rs1 rs2 => Sys2Proof.Machine.execPcntlo0 rd rs1 rs2 s
  | .selw rd rs1 rs2 rs3 => Sys2Proof.Machine.execSelw rd rs1 rs2 rs3 s
  | .selw0 rd rs1 rs2 rs3 => Sys2Proof.Machine.execSelw0 rd rs1 rs2 rs3 s
  | .seltab rd rs1 rs2 => Sys2Proof.Machine.execSeltab rd rs1 rs2 s
  | .lblk rd rs1 => Sys2Proof.Machine.execLblk rd rs1 s
  | .sblk rd rs1 => Sys2Proof.Machine.execSblk rd rs1 s
  | .soff rd rs1 => Sys2Proof.Machine.execSoff rd rs1 s
  | .phase rd rs1 => Sys2Proof.Machine.execPhase rd rs1 s
  | .relget rd rs1 rs2 => Sys2Proof.Machine.execRelget rd rs1 rs2 s
  | .relget0 rd rs1 rs2 => Sys2Proof.Machine.execRelget0 rd rs1 rs2 s
  | .relset rd rs1 rs2 rs3 => Sys2Proof.Machine.execRelset rd rs1 rs2 rs3 s
  | .subblk rd rs1 rs2 => Sys2Proof.Machine.execSubblk rd rs1 rs2 s
  | .subblk0 rd rs1 rs2 => Sys2Proof.Machine.execSubblk0 rd rs1 rs2 s
  | .absget rd rs1 => Sys2Proof.Machine.execAbsget rd rs1 s
  | .absget0 rd rs1 rs2 => Sys2Proof.Machine.execAbsget0 rd rs1 rs2 s
  | .add rd rs1 rs2 => Sys2Proof.Machine.execAdd rd rs1 rs2 s
  | .sub rd rs1 rs2 => Sys2Proof.Machine.execSub rd rs1 rs2 s

end Sys2Proof.Machine
end

