-- ==== Sys2Proof/Machine/Opcode.lean ====
section
/-! DEFINITION. The fields of a command word and the opcode map (30_encoding.md R60, R61, R63). -/

namespace Sys2Proof.Machine

/-- The mnemonics of 30_encoding.md R63, in the table's order. -/
inductive Mnemonic where
  | popcnt | popcnt0 | pcntlo | pcntlo0 | selw | selw0 | seltab
  | lblk | sblk | soff | phase | relget | relget0 | relset | subblk | subblk0 | absget | absget0
  | add | sub
  deriving DecidableEq, Repr

/-- The three formats of 30_encoding.md R61: `r1` uses `rd`, `rs1`; `r2` also `rs2`; `r3` also `rs3`. -/
inductive Format where
  | r1 | r2 | r3
  deriving DecidableEq, Repr

/-- A command word taken apart (30_encoding.md R60). -/
structure Command where
  /-- bits 31:20, reserved -/
  reserved : BitVec 12
  /-- bits 19:17 -/
  rs3 : BitVec 3
  /-- bits 16:14 -/
  rs2 : BitVec 3
  /-- bits 13:11 -/
  rs1 : BitVec 3
  /-- bits 10:8 -/
  rd : BitVec 3
  /-- bit 7, the 0-form select -/
  inv : BitVec 1
  /-- bits 6:0, the function number -/
  fn : BitVec 7
  deriving DecidableEq, Repr

/-- Every row of the opcode map, in the table's order. -/
def allMnemonics : List Mnemonic :=
  [.popcnt, .popcnt0, .pcntlo, .pcntlo0, .selw, .selw0, .seltab, .lblk, .sblk, .soff, .phase,
   .relget, .relget0, .relset, .subblk, .subblk0, .absget, .absget0, .add, .sub]

/-- The function number of a mnemonic (30_encoding.md R63). -/
def fnOf : Mnemonic → BitVec 7
  | .popcnt => 0x01#7
  | .popcnt0 => 0x01#7
  | .pcntlo => 0x02#7
  | .pcntlo0 => 0x02#7
  | .selw => 0x03#7
  | .selw0 => 0x03#7
  | .seltab => 0x04#7
  | .lblk => 0x10#7
  | .sblk => 0x11#7
  | .soff => 0x12#7
  | .phase => 0x13#7
  | .relget => 0x14#7
  | .relget0 => 0x14#7
  | .relset => 0x15#7
  | .subblk => 0x16#7
  | .subblk0 => 0x16#7
  | .absget => 0x17#7
  | .absget0 => 0x17#7
  | .add => 0x20#7
  | .sub => 0x21#7

/-- The `inv` bit of a mnemonic: 1 for the 0-forms (30_encoding.md R63). -/
def invOf : Mnemonic → BitVec 1
  | .popcnt0 | .pcntlo0 | .selw0 | .relget0 | .subblk0 | .absget0 => 1#1
  | .popcnt | .pcntlo | .selw | .seltab | .lblk | .sblk | .soff | .phase | .relget | .relset
  | .subblk | .absget | .add | .sub => 0#1

/-- The format of a mnemonic (30_encoding.md R63). -/
def formatOf : Mnemonic → Format
  | .popcnt | .popcnt0 | .lblk | .sblk | .soff | .phase | .absget => .r1
  | .pcntlo | .pcntlo0 | .seltab | .relget | .relget0 | .subblk | .subblk0 | .absget0
  | .add | .sub => .r2
  | .selw | .selw0 | .relset => .r3

/-- The mask of fixed bits of a format (30_encoding.md R61). -/
def formatMask : Format → Cmd
  | .r1 => 0xFFFFC0FF#32
  | .r2 => 0xFFFE00FF#32
  | .r3 => 0xFFF000FF#32

/-- The mask of a row of the opcode map (30_encoding.md R61, R63). -/
def maskOf (m : Mnemonic) : Cmd := formatMask (formatOf m)

/-- The match value of a row, `fn | (inv << 7)` (30_encoding.md R63). -/
def matchOf (m : Mnemonic) : Cmd := (fnOf m).setWidth 32 ||| ((invOf m).setWidth 32 <<< 7)

/-- The row of the opcode map with a function number and an `inv` bit, if there is one (30_encoding.md R63, R69). -/
def mnemonicAt (fn : BitVec 7) (inv : BitVec 1) : Option Mnemonic :=
  allMnemonics.find? fun m => fnOf m == fn && invOf m == inv

/-- The three bits of a register field. -/
def regBits (r : Reg) : BitVec 3 := BitVec.ofNat 3 r.val

/-- The register a three-bit field names (30_encoding.md R69). -/
def regOfBits (b : BitVec 3) : Reg := ⟨b.toNat, b.isLt⟩

/-- The row of the opcode map a command is an instance of. -/
def mnemonicOf : Instr → Mnemonic
  | .popcnt _ _ => .popcnt
  | .popcnt0 _ _ => .popcnt0
  | .pcntlo _ _ _ => .pcntlo
  | .pcntlo0 _ _ _ => .pcntlo0
  | .selw _ _ _ _ => .selw
  | .selw0 _ _ _ _ => .selw0
  | .seltab _ _ _ => .seltab
  | .lblk _ _ => .lblk
  | .sblk _ _ => .sblk
  | .soff _ _ => .soff
  | .phase _ _ => .phase
  | .relget _ _ _ => .relget
  | .relget0 _ _ _ => .relget0
  | .relset _ _ _ _ => .relset
  | .subblk _ _ _ => .subblk
  | .subblk0 _ _ _ => .subblk0
  | .absget _ _ => .absget
  | .absget0 _ _ _ => .absget0
  | .add _ _ _ => .add
  | .sub _ _ _ => .sub

/-- The register a command writes, `rd` (10_state.md R22: exactly one). -/
def destOf : Instr → Reg
  | .popcnt rd _ => rd
  | .popcnt0 rd _ => rd
  | .pcntlo rd _ _ => rd
  | .pcntlo0 rd _ _ => rd
  | .selw rd _ _ _ => rd
  | .selw0 rd _ _ _ => rd
  | .seltab rd _ _ => rd
  | .lblk rd _ => rd
  | .sblk rd _ => rd
  | .soff rd _ => rd
  | .phase rd _ => rd
  | .relget rd _ _ => rd
  | .relget0 rd _ _ => rd
  | .relset rd _ _ _ => rd
  | .subblk rd _ _ => rd
  | .subblk0 rd _ _ => rd
  | .absget rd _ => rd
  | .absget0 rd _ _ => rd
  | .add rd _ _ => rd
  | .sub rd _ _ => rd

/-- The registers a command reads, those of the fields its format uses (30_encoding.md R70). -/
def sourcesOf : Instr → List Reg
  | .popcnt _ rs1 => [rs1]
  | .popcnt0 _ rs1 => [rs1]
  | .pcntlo _ rs1 rs2 => [rs1, rs2]
  | .pcntlo0 _ rs1 rs2 => [rs1, rs2]
  | .selw _ rs1 rs2 rs3 => [rs1, rs2, rs3]
  | .selw0 _ rs1 rs2 rs3 => [rs1, rs2, rs3]
  | .seltab _ rs1 rs2 => [rs1, rs2]
  | .lblk _ rs1 => [rs1]
  | .sblk _ rs1 => [rs1]
  | .soff _ rs1 => [rs1]
  | .phase _ rs1 => [rs1]
  | .relget _ rs1 rs2 => [rs1, rs2]
  | .relget0 _ rs1 rs2 => [rs1, rs2]
  | .relset _ rs1 rs2 rs3 => [rs1, rs2, rs3]
  | .subblk _ rs1 rs2 => [rs1, rs2]
  | .subblk0 _ rs1 rs2 => [rs1, rs2]
  | .absget _ rs1 => [rs1]
  | .absget0 _ rs1 rs2 => [rs1, rs2]
  | .add _ rs1 rs2 => [rs1, rs2]
  | .sub _ rs1 rs2 => [rs1, rs2]

/-- The field of the `n`-th source, 0 where the format does not use it (30_encoding.md R61). -/
def sourceField (i : Instr) (n : Nat) : BitVec 3 :=
  match (sourcesOf i)[n]? with
  | some r => regBits r
  | none => 0#3

/-- The fields of a command's word (30_encoding.md R60, R61, R63). -/
def fieldsOf (i : Instr) : Command where
  reserved := 0#12
  rs3 := sourceField i 2
  rs2 := sourceField i 1
  rs1 := sourceField i 0
  rd := regBits (destOf i)
  inv := invOf (mnemonicOf i)
  fn := fnOf (mnemonicOf i)

/-- The command of a row with given register numbers; the fields the row's format does not use are ignored
(30_encoding.md R69). -/
def instrOf (m : Mnemonic) (rd rs1 rs2 rs3 : Reg) : Instr :=
  match m with
  | .popcnt => .popcnt rd rs1
  | .popcnt0 => .popcnt0 rd rs1
  | .pcntlo => .pcntlo rd rs1 rs2
  | .pcntlo0 => .pcntlo0 rd rs1 rs2
  | .selw => .selw rd rs1 rs2 rs3
  | .selw0 => .selw0 rd rs1 rs2 rs3
  | .seltab => .seltab rd rs1 rs2
  | .lblk => .lblk rd rs1
  | .sblk => .sblk rd rs1
  | .soff => .soff rd rs1
  | .phase => .phase rd rs1
  | .relget => .relget rd rs1 rs2
  | .relget0 => .relget0 rd rs1 rs2
  | .relset => .relset rd rs1 rs2 rs3
  | .subblk => .subblk rd rs1 rs2
  | .subblk0 => .subblk0 rd rs1 rs2
  | .absget => .absget rd rs1
  | .absget0 => .absget0 rd rs1 rs2
  | .add => .add rd rs1 rs2
  | .sub => .sub rd rs1 rs2

end Sys2Proof.Machine
end

