-- ==== Sys2Proof/WellFormed.lean ====
section
/-! DEFINITION. When the fields of a command word are a legal command (30_encoding.md R61, R63, R65, R66). An `Instr`
is well-formed when its fields are; the register fields of an `Instr` are numbers below 8 by their type. -/

namespace Sys2Proof

open Machine

/-- Bits 31:20 are 0 (30_encoding.md R60). -/
def reservedZero (c : Command) : Bool := c.reserved == 0#12

/-- The function number and the `inv` bit are those of a row of the opcode map (30_encoding.md R63). -/
def assigned (c : Command) : Bool := (mnemonicAt c.fn c.inv).isSome

/-- The register fields the format does not use are 0 (30_encoding.md R61). -/
def unusedZero (f : Format) (c : Command) : Bool :=
  match f with
  | .r1 => c.rs2 == 0#3 && c.rs3 == 0#3
  | .r2 => c.rs3 == 0#3
  | .r3 => true

/-- Every register field the row's format does not use is 0 (30_encoding.md R61). -/
def unusedFieldsZero (c : Command) : Bool :=
  match mnemonicAt c.fn c.inv with
  | none => true
  | some m => unusedZero (formatOf m) c

/-- The fields are those of a legal command (30_encoding.md R65, R66). -/
def fieldsWellFormed (c : Command) : Bool := reservedZero c && assigned c && unusedFieldsZero c

/-- The command's fields are legal. -/
def wellFormed (i : Instr) : Bool := fieldsWellFormed (fieldsOf i)

end Sys2Proof
end

