-- ==== Sys2Proof/Decode.lean ====
section
/-! DEFINITION. From a command word to the command it stands for, or the name of what makes it illegal, and back
(30_encoding.md R60 to R70). -/

namespace Sys2Proof

open Machine

/-- Why a CMD write holds no legal command (30_encoding.md R66). -/
inductive IllegalCause where
  /-- data bits 63:32 are not all 0 (20_memory.md R44) -/
  | dataHigh
  /-- command bits 31:20 are not all 0 -/
  | reservedBits
  /-- no row of the opcode map has this `fn` and `inv` -/
  | unassigned
  /-- a register field the row's format does not use is not 0 -/
  | unusedField
  deriving DecidableEq, Repr

/-- What a decoder makes of a word. -/
inductive Decoded where
  | legal (i : Instr)
  | illegal (c : IllegalCause)
  deriving DecidableEq, Repr

/-- The fields of a command word (30_encoding.md R60). -/
def splitWord (w : Cmd) : Command where
  reserved := w.extractLsb' 20 12
  rs3 := w.extractLsb' 17 3
  rs2 := w.extractLsb' 14 3
  rs1 := w.extractLsb' 11 3
  rd := w.extractLsb' 8 3
  inv := w.extractLsb' 7 1
  fn := w.extractLsb' 0 7

/-- The command word of the fields, bit 31 first (30_encoding.md R60, R61). -/
def joinWord (c : Command) : Cmd :=
  c.reserved ++ c.rs3 ++ c.rs2 ++ c.rs1 ++ c.rd ++ c.inv ++ c.fn

/-- The command the fields stand for (30_encoding.md R65, R66, R69). -/
def decodeFields (c : Command) : Decoded :=
  if !reservedZero c then .illegal .reservedBits
  else
    match mnemonicAt c.fn c.inv with
    | none => .illegal .unassigned
    | some m =>
      if !unusedZero (formatOf m) c then .illegal .unusedField
      else .legal (instrOf m (regOfBits c.rd) (regOfBits c.rs1) (regOfBits c.rs2) (regOfBits c.rs3))

/-- The command a 32-bit word stands for (30_encoding.md R65 to R69). -/
def decode (w : Cmd) : Decoded := decodeFields (splitWord w)

/-- What the data of a host write to CMD stands for (20_memory.md R44). -/
def decodeData (d : Word) : Decoded :=
  if d.extractLsb' 32 32 = 0#32 then decode (d.extractLsb' 0 32) else .illegal .dataHigh

/-- The word of a command (30_encoding.md R60, R61, R63). -/
def encode (i : Instr) : Cmd := joinWord (fieldsOf i)

/-- The command, where there is one. -/
def legalInstr : Decoded → Option Instr
  | .legal i => some i
  | .illegal _ => none

/-- The instruction the decoder reads from the bits `w` of an opcode-table row of `nbits` bits. A command is 32 bits
(30_encoding.md R68) and reaches the unit as the low bits of CMD data (20_memory.md R44). -/
def decodeTableWord (nbits w : Nat) : Option Instr :=
  legalInstr (decodeData (BitVec.ofNat 64 (w % 2 ^ nbits)))

end Sys2Proof
end

