-- ==== Sys2Proof/Machine/PortMap.lean ====
section
/-! DEFINITION. The port address map (20_memory.md R42). -/

namespace Sys2Proof.Machine

/-- What a port address names (20_memory.md R42). -/
inductive PortSlot where
  | x (r : Reg)
  | cmd
  | status
  | reserved
  deriving DecidableEq, Repr

/-- The port address decode (20_memory.md R42). -/
def portSlot (a : PortAddr) : PortSlot :=
  if h : a.toNat < 8 then .x ⟨a.toNat, h⟩
  else if a = 0x8#4 then .cmd
  else if a = 0x9#4 then .status
  else .reserved

end Sys2Proof.Machine
end

