-- ==== Sys2Proof/Machine/ReadFaults.lean ====
section
/-! DEFINITION. The read faults of 10_state.md R34: which operand registers the next host operation reads, and which of
these reads are of a register not written since reset, by the host or by a command. Where a reset event has left the
register unspecified, such a read stops the machine (log entries 8 and 16). Where the register still holds what
`State.reset` names for it, the read goes on record in the state and the machine goes on (log entries 1 and 16). -/

namespace Sys2Proof.Machine

/-- The operand registers the next host operation reads: those a legal command's format uses (30_encoding.md R70), or
the one a host read names (20_memory.md R46). -/
def registersRead (s : State) : List Reg :=
  match s.host with
  | [] => []
  | .reset :: _ => []
  | .hread a :: _ =>
    match portSlot a with
    | .x r => [r]
    | .cmd => []
    | .status => []
    | .reserved => []
  | .hwrite a d :: _ =>
    match portSlot a with
    | .cmd =>
      match decodeData d with
      | .legal i => sourcesOf i
      | .illegal _ => []
    | .x _ => []
    | .status => []
    | .reserved => []

/-- Those of them that have not been written since reset. -/
def unwrittenReads (s : State) : List Reg := (registersRead s).filter fun r => !isWritten r s

/-- Those of them that a reset event has left unspecified. -/
def unspecifiedReads (s : State) : List Reg :=
  (registersRead s).filter fun r => originOf r s == .unspecified

/-- The fault at which the next host operation stops: the first of its reads that yields no defined value
(10_state.md R34). -/
def readFault (s : State) : Option Fault := (unspecifiedReads s).head?.map .unspecifiedRead

/-- The record once the next host operation has been taken: one more for each of its unwritten reads. -/
def readFaultsAfter (s : State) : List ReadFault :=
  (unwrittenReads s).map (fun r => { operation := s.draws + 1, register := r }) ++ s.readFaults

end Sys2Proof.Machine
end

