-- ==== Sys2Proof/Machine/HostPort.lean ====
section
/-! DEFINITION. The host port (20_memory.md R41 to R47): what each host operation does, up to the command a CMD write
hands over for execution. -/

namespace Sys2Proof.Machine

/-- The data a host read returns (20_memory.md R46, R47). -/
def readData (p : PortSlot) (s : State) : Word :=
  match p with
  | .x r => readSource 0 r s
  | .cmd => s.lastCmd.setWidth 64
  | .status => statusWord s
  | .reserved => 0#64

/-- The data goes to the host. -/
def reply (d : Word) (s : State) : State := { s with replies := d :: s.replies }

/-- `hread`: no side effect, but a reserved address flags HADR (20_memory.md R46, R47; 90_conflicts.md C9). -/
def hostRead (p : PortSlot) (s : State) : State :=
  match p with
  | .x _ => reply (readData p s) s
  | .cmd => reply (readData p s) s
  | .status => reply (readData p s) s
  | .reserved => flag .hadr (reply (readData p s) s)

/-- `LASTCMD <- d[31:0]`, on every CMD write (10_state.md R25). -/
def setLastCmd (d : Word) (s : State) : State := { s with lastCmd := d.extractLsb' 0 32 }

/-- A host write to CMD (20_memory.md R44): LASTCMD takes the low half; an illegal word flags ILL and nothing else
happens (60_exceptions.md R141); a legal one is handed over for execution. -/
def issueCommand (d : Word) (s : State) : State × Option Instr :=
  match decodeData d with
  | .illegal _ => (flag .ill (setLastCmd d s), none)
  | .legal i => (setLastCmd d s, some i)

/-- `hwrite` (20_memory.md R43 to R45, R47). -/
def hostWrite (p : PortSlot) (d : Word) (s : State) : State × Option Instr :=
  match p with
  | .x r => (writeReg r d s, none)
  | .cmd => issueCommand d s
  | .status => (clearStatus d s, none)
  | .reserved => (flag .hadr s, none)

/-- One host operation, or a reset, up to the command to execute. -/
def performEvent (e : HostEvent) (s : State) : State × Option Instr :=
  match e with
  | .hwrite a d => hostWrite (portSlot a) d s
  | .hread a => (hostRead (portSlot a) s, none)
  | .reset => (resetUnit s, none)

/-- The first host operation is off the list, leaving `rest`; it has free values of its own, and its reads of
registers not written since reset go on record. -/
def taken (rest : List HostEvent) (s : State) : State :=
  nextDraw { s with host := rest, readFaults := readFaultsAfter s }

/-- The next host operation in order (20_memory.md R51). With none to come the unit is idle and holds its state
(60_exceptions.md R156; log entry 7). -/
def takeHostEvent (s : State) : State × Option Instr :=
  match s.host with
  | [] => (s, none)
  | e :: rest => performEvent e (taken rest s)

/-- The host operation that issues the command whose bits are `w` (20_memory.md R44). -/
def commandWrite (nbits w : Nat) : HostEvent := .hwrite 0x8#4 (BitVec.ofNat 64 (w % 2 ^ nbits))

end Sys2Proof.Machine
end

