-- ==== Sys2Proof/Machine/Step.lean ====
section
/-! DEFINITION. One step is one host operation, completed with all its writes before the next (20_memory.md R51;
70_reset_and_hazards.md R165). -/

namespace Sys2Proof.Machine

/-- Perform the next host operation; where it issues a legal command, execute it. -/
def completeHostEvent (s : State) : Host.Outcome State Fault Refusal :=
  match takeHostEvent s with
  | (t, none) => .next t
  | (t, some i) => exec i t

/-- The next host operation, which stops at a read fault (10_state.md R34) and otherwise completes (60_exceptions.md
R140). -/
def step (s : State) : Host.Outcome State Fault Refusal :=
  match readFault s with
  | some f => .fault f
  | none => completeHostEvent s

/-- The next host operation issues the command whose bits are `w`: the unit fetches nothing, its program is the host's
order of CMD writes (10_state.md R24; log entry 5). -/
def State.withFetchWord (s : State) (nbits w : Nat) : State :=
  { s with host := commandWrite nbits w :: s.host }

end Sys2Proof.Machine
end

