-- ==== Sys2Proof/Safety.lean ====
section
/-! DEFINITION. What claims are stated in: which steps read only written registers (10_state.md R34;
70_reset_and_hazards.md R163), which runs are judged clean (60_exceptions.md R157), what a command leaves unchanged, and
counts of bits over natural numbers, independent of the machine's own functions. -/

namespace Sys2Proof

open Machine

/-- The next host operation reads no register that has not been written since reset, so it is none of the reads that
10_state.md R34 calls a fault (70_reset_and_hazards.md R163; log entry 1). -/
def readsOnlyWritten (s : State) : Bool := (registersRead s).all fun r => isWritten r s

/-- The next host operation reads no register that a reset event has left unspecified, so it does not stop at a read
fault (10_state.md R34; log entry 16). -/
def readsOnlySpecified (s : State) : Bool := (registersRead s).all fun r => originOf r s != .unspecified

/-- Each of the next `n` host operations reads only written registers. -/
def runReadsOnlyWritten : Nat → State → Bool
  | 0, _ => true
  | n + 1, s =>
    readsOnlyWritten s &&
      match step s with
      | .next t => runReadsOnlyWritten n t
      | .fault _ => false
      | .refused _ => false

/-- A run of `n` host operations whose result a claim may rest on: it reads only written registers, and STATUS is 0 at
its start and still 0 at its end (60_exceptions.md R157; 70_reset_and_hazards.md R163). -/
def cleanRun (n : Nat) (s t : State) : Prop :=
  runReadsOnlyWritten n s = true ∧ s.status = 0#4 ∧ core.run n s = .next t ∧ t.status = 0#4

/-- The states agree on all but the contents of the registers that do not satisfy `counts`. -/
structure AgreeOn (counts : RegOrigin → Prop) (s t : State) : Prop where
  origin : s.origin = t.origin
  regs : ∀ r, counts (originOf r s) → readReg r s = readReg r t
  lastCmd : s.lastCmd = t.lastCmd
  status : s.status = t.status
  host : s.host = t.host
  replies : s.replies = t.replies
  draws : s.draws = t.draws
  readFaults : s.readFaults = t.readFaults

/-- The states agree on all but the contents of the registers not written since reset. -/
def AgreeOnWritten : State → State → Prop := AgreeOn fun o => o = .written

/-- The states agree on all but the contents of the registers that a reset event has left unspecified. -/
def AgreeOnSpecified : State → State → Prop := AgreeOn fun o => o ≠ .unspecified

/-- The STATUS bit of a condition is 1. -/
def statusHas (c : Condition) (s : State) : Prop := s.status.getLsbD (conditionBit c) = true

/-- SELR and FOVF are flagged only by commands that also write their destination (60_exceptions.md R142, R143), and
reset clears both (10_state.md R33): where either is 1, some operand register has been written since reset. -/
def conditionsComeWithWrites (s : State) : Prop :=
  statusHas .selr s ∨ statusHas .fovf s → ∃ r, isWritten r s = true

/-- The host operation that can newly set a condition (60_exceptions.md R147), as the next one of `s`. -/
def causeOf (c : Condition) (s : State) : Prop :=
  match c with
  | .ill => ∃ d rest, s.host = .hwrite 0x8#4 d :: rest ∧ ∀ i, decodeData d ≠ .legal i
  | .selr => ∃ d rest i, s.host = .hwrite 0x8#4 d :: rest ∧ decodeData d = .legal i ∧
      (mnemonicOf i = .selw ∨ mnemonicOf i = .selw0)
  | .fovf => ∃ d rest i, s.host = .hwrite 0x8#4 d :: rest ∧ decodeData d = .legal i ∧
      mnemonicOf i = .relset
  | .hadr => ∃ a rest, 10 ≤ a.toNat ∧
      (s.host = .hread a :: rest ∨ ∃ d, s.host = .hwrite a d :: rest)

/-- Nothing but `X[rd]`, its origin and STATUS differs from `s` to `t`: what a command may change (10_state.md R22, R23,
R25). -/
structure KeepsAllBut (rd : Reg) (s t : State) : Prop where
  regs : ∀ r, r ≠ rd → readReg r t = readReg r s
  origins : ∀ r, r ≠ rd → originOf r t = originOf r s
  mark : isWritten rd t = true
  lastCmd : t.lastCmd = s.lastCmd
  host : t.host = s.host
  replies : t.replies = s.replies
  draws : t.draws = s.draws
  readFaults : t.readFaults = s.readFaults

/-- The command `i` completes in `s`: `exec` answers a next state, in which `X[rd]` satisfies `value`, STATUS is `status`,
and nothing else differs. -/
def Completes (i : Instr) (s : State) (rd : Reg) (status : BitVec 4) (value : Word → Prop) : Prop :=
  ∃ t, exec i s = .next t ∧ value (readReg rd t) ∧ t.status = status ∧ KeepsAllBut rd s t

/-- A command word by its match value and its register numbers: `rd` from bit 8, `rs1` from bit 11, `rs2` from bit 14,
`rs3` from bit 17, as the sum of 30_encoding.md R74; a field the format does not use is 0 (R60, R61). -/
def commandWord (matchValue rd rs1 rs2 rs3 : Nat) : Nat :=
  matchValue + 2 ^ 8 * rd + 2 ^ 11 * rs1 + 2 ^ 14 * rs2 + 2 ^ 17 * rs3

/-- The encoding clause of a command's rule: its word is `w`, and the decoder reads it back. -/
def EncodedAs (i : Instr) (w : Nat) : Prop :=
  (encode i).toNat = w ∧ decode (encode i) = .legal i

/-- The rows of spec/opcode_table.json: mnemonic, match value, mask (30_encoding.md R63, R65). -/
def tableRows : List (Mnemonic × Cmd × Cmd) :=
  [(.popcnt, 0x00000001#32, 0xFFFFC0FF#32),
   (.popcnt0, 0x00000081#32, 0xFFFFC0FF#32),
   (.pcntlo, 0x00000002#32, 0xFFFE00FF#32),
   (.pcntlo0, 0x00000082#32, 0xFFFE00FF#32),
   (.selw, 0x00000003#32, 0xFFF000FF#32),
   (.selw0, 0x00000083#32, 0xFFF000FF#32),
   (.seltab, 0x00000004#32, 0xFFFE00FF#32),
   (.lblk, 0x00000010#32, 0xFFFFC0FF#32),
   (.sblk, 0x00000011#32, 0xFFFFC0FF#32),
   (.soff, 0x00000012#32, 0xFFFFC0FF#32),
   (.phase, 0x00000013#32, 0xFFFFC0FF#32),
   (.relget, 0x00000014#32, 0xFFFE00FF#32),
   (.relget0, 0x00000094#32, 0xFFFE00FF#32),
   (.relset, 0x00000015#32, 0xFFF000FF#32),
   (.subblk, 0x00000016#32, 0xFFFE00FF#32),
   (.subblk0, 0x00000096#32, 0xFFFE00FF#32),
   (.absget, 0x00000017#32, 0xFFFFC0FF#32),
   (.absget0, 0x00000097#32, 0xFFFE00FF#32),
   (.add, 0x00000020#32, 0xFFFE00FF#32),
   (.sub, 0x00000021#32, 0xFFFE00FF#32)]

/-- How many of the bits `0` to `n - 1` of `v` are 1. -/
def onesBelow (v : Word) (n : Nat) : Nat := (List.range n).countP fun i => v.getLsbD i

/-- How many of the bits `0` to `n - 1` of `v` are 0. -/
def zerosBelow (v : Word) (n : Nat) : Nat := (List.range n).countP fun i => !v.getLsbD i

/-- Bit `m` of `v` is its `k`-th 1 bit, counted from 0. -/
def isKthOne (v : Word) (k m : Nat) : Prop := m < 64 ∧ v.getLsbD m = true ∧ onesBelow v m = k

/-- Bit `m` of `v` is its `k`-th 0 bit, counted from 0. -/
def isKthZero (v : Word) (k m : Nat) : Prop := m < 64 ∧ v.getLsbD m = false ∧ zerosBelow v m = k

/-- The field table of 43_counter_index.md R104: `(lsb_k, W_k)` for `k` in 1..7; `rel_0` is not stored. -/
def relTable (k : Nat) : Nat × Nat :=
  match k with
  | 1 => (0, 7)
  | 2 => (7, 8)
  | 3 => (15, 8)
  | 4 => (23, 9)
  | 5 => (32, 9)
  | 6 => (41, 9)
  | 7 => (50, 9)
  | _ => (0, 0)

/-- `rel_k` of a rel word as a natural number (43_counter_index.md R104, R105). -/
def relCount (v : Word) (k : Nat) : Nat := v.toNat / 2 ^ (relTable k).1 % 2 ^ (relTable k).2

/-- `64*k - rel_k` modulo 2^64 as a natural number (43_counter_index.md R108). -/
def relZeros (v : Word) (k : Nat) : Nat := (2 ^ 64 + 64 * k - relCount v k) % 2 ^ 64

/-- The comparison tree of 43_counter_index.md R117 over natural numbers. -/
def phaseCChoice (T : Nat → Nat) (q : Nat) : Nat :=
  if q < T 4 then
    if q < T 2 then (if q < T 1 then 0 else 1) else (if q < T 3 then 2 else 3)
  else
    if q < T 6 then (if q < T 5 then 4 else 5) else (if q < T 7 then 6 else 7)

end Sys2Proof
end

