-- ==== Sys2Proof/Certificates/Slice0/Obligations.lean ====
section
/-! DEFINITION. The statements for the provers. The notions they use and that are not the machine's own (Completes,
KeepsAllBut, onesBelow, relCount, tableRows, ...) are in Sys2Proof/Safety.lean. -/

open Sys2Proof Sys2Proof.Machine

/-- Each of the seven words of the table of 30_encoding.md R74 decodes to the command in its first column, and that
command encodes to the word. (R74) -/
def Obligations.SpecWordsDecode : Prop :=
  (decode 0x00000101#32 = .legal (.popcnt 1 0) ∧ encode (.popcnt 1 0) = 0x00000101#32) ∧
  (decode 0x00001A81#32 = .legal (.popcnt0 2 3) ∧ encode (.popcnt0 2 3) = 0x00001A81#32) ∧
  (decode 0x00005302#32 = .legal (.pcntlo 3 2 1) ∧ encode (.pcntlo 3 2 1) = 0x00005302#32) ∧
  (decode 0x00068803#32 = .legal (.selw 0 1 2 3) ∧ encode (.selw 0 1 2 3) = 0x00068803#32) ∧
  (decode 0x00097783#32 = .legal (.selw0 7 6 5 4) ∧ encode (.selw0 7 6 5 4) = 0x00097783#32) ∧
  (decode 0x000D6415#32 = .legal (.relset 4 4 5 6) ∧ encode (.relset 4 4 5 6) = 0x000D6415#32) ∧
  (decode 0x00007F20#32 = .legal (.add 7 7 1) ∧ encode (.add 7 7 1) = 0x00007F20#32)

/-- For every command i, with every register number in every field: the fields of i pass the checks of R61 and R65,
and decode (encode i) is i. (30_encoding.md R60, 30_encoding.md R61, 30_encoding.md R63, 30_encoding.md R69) -/
def Obligations.DecodeInvertsEncode : Prop :=
  ∀ i : Instr, wellFormed i = true ∧ decode (encode i) = .legal i

/-- For every 32-bit word w that decodes to a command i, encode i is w: no bit of a legal word is ignored.
(30_encoding.md R65, 30_encoding.md R69) -/
def Obligations.EncodeInvertsDecode : Prop :=
  ∀ (w : Cmd) (i : Instr), decode w = .legal i → encode i = w

/-- For every word w: if w decodes to i then w matches the row of i's mnemonic in spec/opcode_table.json under its
mask; if w matches a row, it decodes to a command of that row's mnemonic; and two rows that w matches are the same
row. (R65) -/
def Obligations.LegalWordsAreTheTableRows : Prop :=
  ∀ w : Cmd,
    (∀ i, decode w = .legal i →
      ∃ row ∈ tableRows, row.1 = mnemonicOf i ∧ w &&& row.2.2 = row.2.1) ∧
    (∀ row ∈ tableRows, w &&& row.2.2 = row.2.1 →
      ∃ i, decode w = .legal i ∧ mnemonicOf i = row.1) ∧
    (∀ row ∈ tableRows, ∀ row' ∈ tableRows,
      w &&& row.2.2 = row.2.1 → w &&& row'.2.2 = row'.2.1 → row = row')

/-- For every word w with fn = w[6:0] and inv = w[7]: if w[31:20] is not 0, or fn is 0x00, 0x05 to 0x0F, 0x18 to 0x1F
or 0x22 to 0x7F, or inv is 1 and fn is that of SELTAB, LBLK, SBLK, SOFF, PHASE, RELSET, ADD or SUB, or w[19:17] is
not 0 and fn is not 0x03 or 0x15, or w[16:14] is not 0 and fn is 0x01, 0x10 to 0x13, or 0x17 with inv 0, then w
decodes to no command. (30_encoding.md R66, 30_encoding.md R67) -/
def Obligations.ReservedEncodingsAreIllegal : Prop :=
  ∀ (w : Cmd) (i : Instr),
    (w.extractLsb' 20 12 ≠ 0#12 → decode w ≠ .legal i) ∧
    ((let fn := (w.extractLsb' 0 7).toNat
      fn = 0 ∨ (0x05 ≤ fn ∧ fn ≤ 0x0F) ∨ (0x18 ≤ fn ∧ fn ≤ 0x1F) ∨ (0x22 ≤ fn ∧ fn ≤ 0x7F)) →
      decode w ≠ .legal i) ∧
    (w.getLsbD 7 = true →
      (w.extractLsb' 0 7).toNat ∈ [0x04, 0x10, 0x11, 0x12, 0x13, 0x15, 0x20, 0x21] →
      decode w ≠ .legal i) ∧
    (w.extractLsb' 17 3 ≠ 0#3 → (w.extractLsb' 0 7).toNat ∉ [0x03, 0x15] → decode w ≠ .legal i) ∧
    (w.extractLsb' 14 3 ≠ 0#3 →
      ((w.extractLsb' 0 7).toNat ∈ [0x01, 0x10, 0x11, 0x12, 0x13] ∨
        ((w.extractLsb' 0 7).toNat = 0x17 ∧ w.getLsbD 7 = false)) →
      decode w ≠ .legal i)

/-- If the next host operation writes d to CMD, d[63:32] is 0 and d[31:0] decodes to i: where no source register of i
is unspecified, step is exec of i in the state in which that operation has been taken (off the list, the model's
count of host operations, draws, one higher, and its reads of registers not written since reset on record, log
entry 16) and LASTCMD is d[31:0], and the step adds nothing else; where a source register of i is left unspecified
by a reset event, step is the fault that names such a source (R34). (20_memory.md R44, 30_encoding.md R70,
10_state.md R25, 10_state.md R34, log entry 16 (notes/assumptions/16.md)) -/
def Obligations.StepRunsTheDecodedCommand : Prop :=
  ∀ (s : State) (d : Word) (rest : List HostEvent) (i : Instr),
    s.host = .hwrite 0x8#4 d :: rest → d.extractLsb' 32 32 = 0#32 →
    decode (d.extractLsb' 0 32) = .legal i →
    ((∀ r ∈ sourcesOf i, originOf r s ≠ .unspecified) →
      step s = exec i { s with
        host := rest, draws := s.draws + 1, readFaults := readFaultsAfter s
        lastCmd := d.extractLsb' 0 32 }) ∧
    (∀ r ∈ sourcesOf i, originOf r s = .unspecified →
      ∃ q ∈ sourcesOf i, originOf q s = .unspecified ∧ step s = .fault (.unspecifiedRead q))

/-- If the next host operation writes d to CMD and d[63:32] is not 0 or d[31:0] decodes to no command, then the next
state has STATUS bit 0 set, LASTCMD = d[31:0], the operation taken, and everything else, every operand register
among it, as before. (R141) -/
def Obligations.IllegalCommandSetsOnlyIll : Prop :=
  ∀ (s : State) (d : Word) (rest : List HostEvent),
    s.host = .hwrite 0x8#4 d :: rest →
    (d.extractLsb' 32 32 ≠ 0#32 ∨ ∀ i, decode (d.extractLsb' 0 32) ≠ .legal i) →
    step s = .next { s with
      host := rest
      draws := s.draws + 1
      lastCmd := d.extractLsb' 0 32
      status := s.status ||| 0b0001#4 }

/-- If the next host operation writes d to the address of operand register r, then the next state has X[r] = d, r
written since reset, so that no later read of it is a fault and each yields d until it changes; every other
register and where its contents come from, STATUS, LASTCMD, the replies and the record of reads are as before, and
the operation is taken (off the list, draws one higher). (R43) -/
def Obligations.HostWriteSetsTheRegister : Prop :=
  ∀ (s : State) (a : PortAddr) (d : Word) (rest : List HostEvent) (r : Reg),
    s.host = .hwrite a d :: rest → a.toNat = r.val →
    ∃ t, step s = .next t ∧ readReg r t = d ∧ isWritten r t = true ∧
      (∀ operand, readSource operand r t = d) ∧
      (∀ q, q ≠ r → readReg q t = readReg q s ∧ originOf q t = originOf q s) ∧
      t.status = s.status ∧ t.lastCmd = s.lastCmd ∧ t.host = rest ∧ t.replies = s.replies ∧
      t.draws = s.draws + 1 ∧ t.readFaults = s.readFaults

/-- If the next host operation reads address a: for a below 8 the data returned is what X[a] holds, but where a reset
event has left X[a] unspecified the step is a fault that names it (R34); for 0x8 it is LASTCMD zero-extended, for
0x9 STATUS[3:0] zero-extended; the next state differs only in that the operation is taken, the data is the newest
reply, and the read of a register not written since State.reset goes on record (log entry 16). For a register not
written since State.reset the data is the value the model names there, its choice (log entry 1). (20_memory.md
R46, 10_state.md R25, 10_state.md R28, 10_state.md R34, log entries 1 and 16 (notes/assumptions)) -/
def Obligations.HostReadReturnsWithoutSideEffect : Prop :=
  ∀ (s : State) (a : PortAddr) (rest : List HostEvent), s.host = .hread a :: rest →
    (∀ r : Reg, a.toNat = r.val → originOf r s ≠ .unspecified →
      step s = .next { s with
        host := rest, draws := s.draws + 1, replies := readReg r s :: s.replies
        readFaults := if isWritten r s then s.readFaults else ⟨s.draws + 1, r⟩ :: s.readFaults }) ∧
    (∀ r : Reg, a.toNat = r.val → originOf r s = .unspecified →
      step s = .fault (.unspecifiedRead r)) ∧
    (a.toNat = 8 →
      step s = .next { s with
        host := rest, draws := s.draws + 1, replies := s.lastCmd.setWidth 64 :: s.replies }) ∧
    (a.toNat = 9 →
      step s = .next { s with
        host := rest, draws := s.draws + 1, replies := s.status.setWidth 64 :: s.replies })

/-- For an address of at least 10: a read returns 0 and sets STATUS bit 3; a write sets STATUS bit 3; nothing else
changes but that the operation is taken. (R47, R144) -/
def Obligations.ReservedAddressFlagsHadr : Prop :=
  ∀ (s : State) (a : PortAddr) (rest : List HostEvent), 10 ≤ a.toNat →
    (s.host = .hread a :: rest →
      step s = .next { s with
        host := rest, draws := s.draws + 1, replies := 0#64 :: s.replies
        status := s.status ||| 0b1000#4 }) ∧
    (∀ d, s.host = .hwrite a d :: rest →
      step s = .next { s with
        host := rest, draws := s.draws + 1, status := s.status ||| 0b1000#4 })

/-- If the next host operation writes d to 0x9, the next state has STATUS[3:0] & ~d[3:0], the operation taken, and
everything else as before. (R45) -/
def Obligations.StatusWriteClearsOnes : Prop :=
  ∀ (s : State) (d : Word) (rest : List HostEvent), s.host = .hwrite 0x9#4 d :: rest →
    step s = .next { s with
      host := rest, draws := s.draws + 1, status := s.status &&& ~~~(d.extractLsb' 0 4) }

/-- If the list of host operations is empty, step answers the same state: the unit is idle and holds all its state.
(60_exceptions.md R156, 00_scope.md R17) -/
def Obligations.IdleUnitHoldsItsState : Prop :=
  ∀ s : State, s.host = [] → step s = .next s

/-- In State.reset, LASTCMD is 0 and what a host read of STATUS returns is 0. (10_state.md R33,
70_reset_and_hazards.md R160) -/
def Obligations.ResetLeavesStatusAndLastCmdZero : Prop :=
  State.reset.lastCmd = 0#32 ∧ statusWord State.reset = 0#64

/-- In State.reset every operand register holds the value the model's log entry 1 names, 0, every read yields it, and
the register counts as not written since reset; no read fault is recorded; the spec gives no value. (10_state.md
R33, 92_eei_decisions.md D22) -/
def Obligations.ResetNamesTheRegisterValue : Prop :=
  ∀ r : Reg, readReg r State.reset = 0#64 ∧
    (∀ operand, readSource operand r State.reset = 0#64) ∧ isWritten r State.reset = false ∧
      State.reset.readFaults = []

/-- If the next event is a reset, the next state has STATUS 0, LASTCMD 0, every register unspecified, so that each
later read of it is a fault until it is written (R34; log entry 16), no register written since reset, what the
registers hold not cleared, the event taken, and the replies and the record of reads as before. (10_state.md R33,
70_reset_and_hazards.md R160, 70_reset_and_hazards.md R161) -/
def Obligations.ResetEventClearsControlState : Prop :=
  ∀ (s : State) (rest : List HostEvent), s.host = .reset :: rest →
    ∃ t, step s = .next t ∧ t.status = 0#4 ∧ t.lastCmd = 0#32 ∧
      (∀ r, originOf r t = .unspecified ∧ isWritten r t = false ∧ readReg r t = readReg r s) ∧
      t.host = rest ∧ t.replies = s.replies ∧ t.draws = s.draws + 1 ∧ t.readFaults = s.readFaults

/-- For every command i and every state s, exec answers a next state in which nothing but X[rd] (then written since
reset) and STATUS differs from s, and STATUS is as before, or has SELR set and i is SELW or SELW0, or has FOVF set
and i is RELSET. (10_state.md R22, 10_state.md R23, 10_state.md R25, 30_encoding.md R70, 60_exceptions.md R140,
60_exceptions.md R147) -/
def Obligations.CommandCompletesAndKeepsTheRest : Prop :=
  ∀ (i : Instr) (s : State), ∃ t, exec i s = .next t ∧ KeepsAllBut (destOf i) s t ∧
    (t.status = s.status ∨
      ((mnemonicOf i = .selw ∨ mnemonicOf i = .selw0) ∧ t.status = s.status ||| 0b0010#4) ∨
      (mnemonicOf i = .relset ∧ t.status = s.status ||| 0b0100#4))

/-- For every state s: where the next host operation reads no register left unspecified by a reset event, there is a
next state t with step s = next t, and the host operations still to come in t are those of s without the first,
and the count that picks free values has grown by one if there was an operation, so no two operations share one;
where it does read one, the step is the fault that names such a register (R34). So the unit never traps or stalls,
takes the operations in order, and the model stops nowhere else. (60_exceptions.md R140, 70_reset_and_hazards.md
R165, 70_reset_and_hazards.md R170, 20_memory.md R51, 10_state.md R34) -/
def Obligations.HostOperationsCompleteOrMeetAReadFault : Prop :=
  ∀ s : State,
    (readsOnlySpecified s = true → ∃ t, step s = .next t ∧ t.host = s.host.tail ∧
      t.draws = s.draws + (s.host.take 1).length) ∧
    (readsOnlySpecified s = false →
      ∃ r ∈ registersRead s, originOf r s = .unspecified ∧ step s = .fault (.unspecifiedRead r))

/-- For every n and every state s: n steps answer a next state, whose host operations still to come are those of s
without the first n; or fewer than n steps reach a state u whose next host operation reads a register r that a
reset event has left unspecified, and the run is the fault that names r. (60_exceptions.md R140, 20_memory.md R51,
70_reset_and_hazards.md R170, 10_state.md R34) -/
def Obligations.RunsStopOnlyAtReadFaults : Prop :=
  ∀ (n : Nat) (s : State),
    (∃ t, core.run n s = .next t ∧ State.host t = s.host.drop n) ∨
    (∃ k, k < n ∧ ∃ (u : State) (r : Reg), core.run k s = .next u ∧ r ∈ registersRead u ∧
      originOf r u = .unspecified ∧ core.run n s = .fault (Fault.unspecifiedRead r))

/-- If a step takes s to t and the bit of a condition is 1 in s, then it is 1 in t, or the host operation taken wrote
data with a 1 in that bit to STATUS, or it was a reset. (10_state.md R27, 10_state.md R28, 60_exceptions.md R157) -/
def Obligations.StatusBitsAreSticky : Prop :=
  ∀ (s t : State) (c : Condition), step s = .next t → statusHas c s →
    statusHas c t ∨
    (∃ d rest, s.host = .hwrite 0x9#4 d :: rest ∧ d.getLsbD (conditionBit c) = true) ∨
    (∃ rest, s.host = .reset :: rest)

/-- If n steps take s to t, none of the first n host operations is a reset or a write to STATUS, and a condition's bit
is 1 in s, then it is 1 in t: STATUS at the end is at least the OR of what was met. (10_state.md R27,
60_exceptions.md R157) -/
def Obligations.ConditionsStayAlongRuns : Prop :=
  ∀ (n : Nat) (s t : State) (c : Condition), core.run n s = .next t →
    (∀ e ∈ s.host.take n, e ≠ .reset ∧ ∀ d, e ≠ .hwrite 0x9#4 d) →
    statusHas c s → statusHas c t

/-- If a step takes s to t and a condition's bit is 0 in s and 1 in t, then the operation taken is that condition's
cause (ILL: a CMD write that is no command; SELR: SELW or SELW0; FOVF: RELSET; HADR: a reserved address), and any
other condition newly set is the same one. (60_exceptions.md R147, 60_exceptions.md R141, 60_exceptions.md R142,
60_exceptions.md R143, 60_exceptions.md R144) -/
def Obligations.NewConditionsHaveTheirCause : Prop :=
  ∀ (s t : State) (c : Condition), step s = .next t → ¬ statusHas c s → statusHas c t →
    causeOf c s ∧ ∀ c', ¬ statusHas c' s → statusHas c' t → c' = c

/-- If a step takes s to t and what X[r] holds differs, then the host operation taken wrote X[r], or wrote to CMD a
word that decodes to a command whose rd is r; if where the contents of X[r] come from differs, it was one of these
or a reset. So a reset does not clear a register, and nothing else changes one. (10_state.md R22, 10_state.md R23,
10_state.md R33, 60_exceptions.md R141) -/
def Obligations.RegistersChangeOnlyWhenWritten : Prop :=
  ∀ (s t : State) (r : Reg), step s = .next t →
    (readReg r t ≠ readReg r s →
      (∃ a d rest, s.host = .hwrite a d :: rest ∧ a.toNat = r.val) ∨
      (∃ d rest i, s.host = .hwrite 0x8#4 d :: rest ∧ decodeData d = .legal i ∧ destOf i = r)) ∧
    (originOf r t ≠ originOf r s →
      (∃ a d rest, s.host = .hwrite a d :: rest ∧ a.toNat = r.val) ∨
      (∃ d rest i, s.host = .hwrite 0x8#4 d :: rest ∧ decodeData d = .legal i ∧ destOf i = r) ∨
      (∃ rest, s.host = .reset :: rest))

/-- If a step takes s to t: when the host operation taken writes d to CMD, LASTCMD of t is d[31:0], legal or not; when
it neither writes to CMD nor is a reset, LASTCMD is as before. (10_state.md R25, 20_memory.md R44) -/
def Obligations.LastCmdIsTheLastCmdWrite : Prop :=
  ∀ s t : State, step s = .next t →
    (∀ d rest, s.host = .hwrite 0x8#4 d :: rest → t.lastCmd = d.extractLsb' 0 32) ∧
    ((∀ d rest, s.host ≠ .hwrite 0x8#4 d :: rest) → (∀ rest, s.host ≠ .reset :: rest) →
      t.lastCmd = s.lastCmd)

/-- For every state s in which SELR or FOVF being 1 implies that some operand register has been written since reset,
and every t with step s = next t, the same holds in t: these two conditions are met only by commands that still
write their destination, and reset clears both together. (60_exceptions.md R142, 60_exceptions.md R143,
10_state.md R27, 10_state.md R33) -/
def Obligations.ConditionsComeWithWritesIsKept : Prop :=
  ∀ s t : State, conditionsComeWithWrites s → step s = .next t → conditionsComeWithWrites t

/-- In State.reset, SELR or FOVF being 1 implies that some operand register has been written since reset. (10_state.md
R33) -/
def Obligations.ResetMeetsConditionsComeWithWrites : Prop :=
  conditionsComeWithWrites State.reset

/-- If two states agree on what reads of the registers the format of i uses yield and on the count that picks free
values, then exec of i completes in both, gives X[rd] the same value in both, and ORs the same conditions into
STATUS in both: no other register, LASTCMD, STATUS, or host operation matters. Where a free value enters
(SELW_OOR, log entry 3; a read of an unspecified register, log entry 8, before which step stops), that both runs
take the same one is the model's choice: equal counts pick equal free values (log entry 4), and no rule says that
the hardware's would agree. (30_encoding.md R70, 10_state.md R25, 10_state.md R27) -/
def Obligations.OnlySourcesMatter : Prop :=
  ∀ (i : Instr) (s s' : State),
    (∀ operand, ∀ r ∈ sourcesOf i, readSource operand r s = readSource operand r s') →
    s.draws = s'.draws →
    ∃ t t' f, exec i s = .next t ∧ exec i s' = .next t' ∧
      readReg (destOf i) t = readReg (destOf i) t' ∧
      t.status = s.status ||| f ∧ t'.status = s'.status ||| f

/-- If two states agree on everything but the contents of registers not written since reset, and the next host
operation reads only written registers (so it is none of the reads R34 calls a fault), then both steps answer next
states, which again agree on everything but the contents of unwritten registers: the value the model names for
them at reset (log entry 1) cannot be seen. Where SELW_OOR enters (log entry 3), that both runs take the same one
is the model's choice (log entry 4). (10_state.md R34, 70_reset_and_hazards.md R163, 10_state.md R33) -/
def Obligations.UnwrittenContentsNeverMatter : Prop :=
  ∀ s s' : State, AgreeOnWritten s s' → readsOnlyWritten s = true →
    ∃ t t', step s = .next t ∧ step s' = .next t' ∧ AgreeOnWritten t t'

/-- For all register numbers and every state, with a, b and c what the reads of rs1, rs2 and rs3 yield: the word of
POPCNT is its match value with the register numbers in their fields and decodes back; exec answers a next state in
which X[rd] is the number of 1 bits of a and STATUS is as before; no other register, LASTCMD, reply or host
operation changes. (R81) -/
def Obligations.PopcntCountsOnes : Prop :=
  ∀ (rd rs1 : Reg) (s : State),
    EncodedAs (.popcnt rd rs1) (commandWord 0x01 rd.val rs1.val 0 0) ∧
    Completes (.popcnt rd rs1) s rd s.status fun v => v.toNat = onesBelow (operandA rs1 s) 64

/-- For all register numbers and every state, with a, b and c what the reads of rs1, rs2 and rs3 yield: the word of
POPCNT0 is its match value with the register numbers in their fields and decodes back; exec answers a next state
in which X[rd] is the number of 0 bits of a, which is 64 minus its number of 1 bits, and STATUS is as before; no
other register, LASTCMD, reply or host operation changes. (R82) -/
def Obligations.PopcntZeroCountsZeros : Prop :=
  ∀ (rd rs1 : Reg) (s : State),
    EncodedAs (.popcnt0 rd rs1) (commandWord 0x81 rd.val rs1.val 0 0) ∧
    Completes (.popcnt0 rd rs1) s rd s.status fun v => 
      v.toNat = zerosBelow (operandA rs1 s) 64 ∧ v.toNat + onesBelow (operandA rs1 s) 64 = 64

/-- For all register numbers and every state, with a, b and c what the reads of rs1, rs2 and rs3 yield: the word of
PCNTLO is its match value with the register numbers in their fields and decodes back; exec answers a next state in
which X[rd] is the number of 1 bits of a below bit b mod 64 (0 when b mod 64 is 0) and STATUS is as before; no
other register, LASTCMD, reply or host operation changes. (R83) -/
def Obligations.PcntloCountsOnesBelowTheOffset : Prop :=
  ∀ (rd rs1 rs2 : Reg) (s : State),
    EncodedAs (.pcntlo rd rs1 rs2) (commandWord 0x02 rd.val rs1.val rs2.val 0) ∧
    Completes (.pcntlo rd rs1 rs2) s rd s.status fun v => v.toNat = onesBelow (operandA rs1 s) ((operandB rs2 s).toNat % 64)

/-- For all register numbers and every state, with a, b and c what the reads of rs1, rs2 and rs3 yield: the word of
PCNTLO0 is its match value with the register numbers in their fields and decodes back; exec answers a next state
in which X[rd] is the number of 0 bits of a below bit b mod 64, which is b mod 64 minus the number of 1 bits
there, and STATUS is as before; no other register, LASTCMD, reply or host operation changes. (R84) -/
def Obligations.PcntloZeroCountsZerosBelowTheOffset : Prop :=
  ∀ (rd rs1 rs2 : Reg) (s : State),
    EncodedAs (.pcntlo0 rd rs1 rs2) (commandWord 0x82 rd.val rs1.val rs2.val 0) ∧
    Completes (.pcntlo0 rd rs1 rs2) s rd s.status fun v => 
      v.toNat = zerosBelow (operandA rs1 s) ((operandB rs2 s).toNat % 64) ∧
        v.toNat + onesBelow (operandA rs1 s) ((operandB rs2 s).toNat % 64) = (operandB rs2 s).toNat % 64

/-- For all register numbers and every state, with a, b and c what the reads of rs1, rs2 and rs3 yield: the word of
SELW is its match value with the register numbers in their fields and decodes back; exec answers a next state in
which if b, as a full 64-bit number, is below the number of 1 bits of a, then X[rd] is c + m modulo 2^64, where
bit m of a is 1 and exactly b of the bits below it are, and STATUS is as before; otherwise SELR is set and X[rd]
is c + p for some p in [0,63] (a free value, log entry 3); no other register, LASTCMD, reply or host operation
changes. (R88, R89, R91) -/
def Obligations.SelwGivesTheKthOne : Prop :=
  ∀ (rd rs1 rs2 rs3 : Reg) (s : State),
    EncodedAs (.selw rd rs1 rs2 rs3) (commandWord 0x03 rd.val rs1.val rs2.val rs3.val) ∧
    ((operandB rs2 s).toNat < onesBelow (operandA rs1 s) 64 →
      ∃ m, isKthOne (operandA rs1 s) (operandB rs2 s).toNat m ∧
        Completes (.selw rd rs1 rs2 rs3) s rd s.status fun v => v = (operandC rs3 s) + BitVec.ofNat 64 m) ∧
    (¬ (operandB rs2 s).toNat < onesBelow (operandA rs1 s) 64 →
      Completes (.selw rd rs1 rs2 rs3) s rd (s.status ||| 0b0010#4) fun v =>
        ∃ p, p < 64 ∧ v = (operandC rs3 s) + BitVec.ofNat 64 p)

/-- For all register numbers and every state, with a, b and c what the reads of rs1, rs2 and rs3 yield: the word of
SELW0 is its match value with the register numbers in their fields and decodes back; exec answers a next state in
which if b, as a full 64-bit number, is below the number of 0 bits of a, then X[rd] is c + m modulo 2^64, where
bit m of a is 0 and exactly b of the bits below it are, and STATUS is as before; otherwise SELR is set and X[rd]
is c + p for some p in [0,63] (a free value, log entry 3); no other register, LASTCMD, reply or host operation
changes. (R88, R90, R91) -/
def Obligations.SelwZeroGivesTheKthZero : Prop :=
  ∀ (rd rs1 rs2 rs3 : Reg) (s : State),
    EncodedAs (.selw0 rd rs1 rs2 rs3) (commandWord 0x83 rd.val rs1.val rs2.val rs3.val) ∧
    ((operandB rs2 s).toNat < zerosBelow (operandA rs1 s) 64 →
      ∃ m, isKthZero (operandA rs1 s) (operandB rs2 s).toNat m ∧
        Completes (.selw0 rd rs1 rs2 rs3) s rd s.status fun v => v = (operandC rs3 s) + BitVec.ofNat 64 m) ∧
    (¬ (operandB rs2 s).toNat < zerosBelow (operandA rs1 s) 64 →
      Completes (.selw0 rd rs1 rs2 rs3) s rd (s.status ||| 0b0010#4) fun v =>
        ∃ p, p < 64 ∧ v = (operandC rs3 s) + BitVec.ofNat 64 p)

/-- For all register numbers and every state, with a, b and c what the reads of rs1, rs2 and rs3 yield: the word of
SELTAB is its match value with the register numbers in their fields and decodes back; exec answers a next state in
which X[rd] is 7 if the byte a[7:0] has at most b mod 8 1 bits, and otherwise the position below 8 of its (b mod
8)-th 1 bit; STATUS is as before; no other register, LASTCMD, reply or host operation changes. (R92, R96) -/
def Obligations.SeltabReadsTheTable : Prop :=
  ∀ (rd rs1 rs2 : Reg) (s : State),
    EncodedAs (.seltab rd rs1 rs2) (commandWord 0x04 rd.val rs1.val rs2.val 0) ∧
    Completes (.seltab rd rs1 rs2) s rd s.status fun v => 
      (onesBelow (operandA rs1 s) 8 ≤ (operandB rs2 s).toNat % 8 → v.toNat = 7) ∧
      ((operandB rs2 s).toNat % 8 < onesBelow (operandA rs1 s) 8 →
        v.toNat < 8 ∧ isKthOne (operandA rs1 s) ((operandB rs2 s).toNat % 8) v.toNat)

/-- For all register numbers and every state, with a, b and c what the reads of rs1, rs2 and rs3 yield: the word of
LBLK is its match value with the register numbers in their fields and decodes back; exec answers a next state in
which X[rd] is a / 512 and STATUS is as before; no other register, LASTCMD, reply or host operation changes.
(R100) -/
def Obligations.LblkDividesByL : Prop :=
  ∀ (rd rs1 : Reg) (s : State),
    EncodedAs (.lblk rd rs1) (commandWord 0x10 rd.val rs1.val 0 0) ∧
    Completes (.lblk rd rs1) s rd s.status fun v => v.toNat = (operandA rs1 s).toNat / Config.L

/-- For all register numbers and every state, with a, b and c what the reads of rs1, rs2 and rs3 yield: the word of
SBLK is its match value with the register numbers in their fields and decodes back; exec answers a next state in
which X[rd] is a / 64 and STATUS is as before; no other register, LASTCMD, reply or host operation changes. (R101) -/
def Obligations.SblkDividesByS : Prop :=
  ∀ (rd rs1 : Reg) (s : State),
    EncodedAs (.sblk rd rs1) (commandWord 0x11 rd.val rs1.val 0 0) ∧
    Completes (.sblk rd rs1) s rd s.status fun v => v.toNat = (operandA rs1 s).toNat / Config.S

/-- For all register numbers and every state, with a, b and c what the reads of rs1, rs2 and rs3 yield: the word of
SOFF is its match value with the register numbers in their fields and decodes back; exec answers a next state in
which X[rd] is a mod 64 and STATUS is as before; no other register, LASTCMD, reply or host operation changes.
(R102) -/
def Obligations.SoffIsTheRemainder : Prop :=
  ∀ (rd rs1 : Reg) (s : State),
    EncodedAs (.soff rd rs1) (commandWord 0x12 rd.val rs1.val 0 0) ∧
    Completes (.soff rd rs1) s rd s.status fun v => v.toNat = (operandA rs1 s).toNat % Config.S

/-- For all register numbers and every state, with a, b and c what the reads of rs1, rs2 and rs3 yield: the word of
PHASE is its match value with the register numbers in their fields and decodes back; exec answers a next state in
which X[rd] is (a / 64) mod 8 and STATUS is as before; no other register, LASTCMD, reply or host operation
changes. (R103) -/
def Obligations.PhaseIsTheBlockInItsLBlock : Prop :=
  ∀ (rd rs1 : Reg) (s : State),
    EncodedAs (.phase rd rs1) (commandWord 0x13 rd.val rs1.val 0 0) ∧
    Completes (.phase rd rs1) s rd s.status fun v => v.toNat = (operandA rs1 s).toNat / Config.S % Config.R

/-- For all register numbers and every state, with a, b and c what the reads of rs1, rs2 and rs3 yield: the word of
RELGET is its match value with the register numbers in their fields and decodes back; exec answers a next state in
which X[rd] is the bits of a at the place the table of R104 gives field b mod 8, as a number, and 0 for field 0;
STATUS is as before; no other register, LASTCMD, reply or host operation changes. (R105, R110) -/
def Obligations.RelgetReadsTheField : Prop :=
  ∀ (rd rs1 rs2 : Reg) (s : State),
    EncodedAs (.relget rd rs1 rs2) (commandWord 0x14 rd.val rs1.val rs2.val 0) ∧
    Completes (.relget rd rs1 rs2) s rd s.status fun v => v.toNat = relCount (operandA rs1 s) ((operandB rs2 s).toNat % 8)

/-- For all register numbers and every state, with a, b and c what the reads of rs1, rs2 and rs3 yield: the word of
RELGET0 is its match value with the register numbers in their fields and decodes back; exec answers a next state
in which X[rd] is 64*k - rel_k of a modulo 2^64 with k = b mod 8, and STATUS is as before; no other register,
LASTCMD, reply or host operation changes. (R111) -/
def Obligations.RelgetZeroReadsTheComplement : Prop :=
  ∀ (rd rs1 rs2 : Reg) (s : State),
    EncodedAs (.relget0 rd rs1 rs2) (commandWord 0x94 rd.val rs1.val rs2.val 0) ∧
    Completes (.relget0 rd rs1 rs2) s rd s.status fun v => v.toNat = relZeros (operandA rs1 s) ((operandB rs2 s).toNat % 8)

/-- For all register numbers and every state, with a, b and c what the reads of rs1, rs2 and rs3 yield: the word of
RELSET is its match value with the register numbers in their fields and decodes back; exec answers a next state in
which with k = b mod 8 and the place and width of field k from the table of R104, each bit of X[rd] inside the
field is the bit of c at its place in the field and each other bit is that of a; FOVF is set exactly when k is not
0 and c is at least 2 to the width, and STATUS is otherwise as before; no other register, LASTCMD, reply or host
operation changes. (R107, R112) -/
def Obligations.RelsetWritesTheField : Prop :=
  ∀ (rd rs1 rs2 rs3 : Reg) (s : State),
    EncodedAs (.relset rd rs1 rs2 rs3) (commandWord 0x15 rd.val rs1.val rs2.val rs3.val) ∧
    Completes (.relset rd rs1 rs2 rs3) s rd
      (if (operandB rs2 s).toNat % 8 ≠ 0 ∧ 2 ^ (relTable ((operandB rs2 s).toNat % 8)).2 ≤ (operandC rs3 s).toNat
        then s.status ||| 0b0100#4 else s.status)
      fun v => ∀ j, j < 64 →
        v.getLsbD j =
          if (relTable ((operandB rs2 s).toNat % 8)).1 ≤ j ∧
              j < (relTable ((operandB rs2 s).toNat % 8)).1 + (relTable ((operandB rs2 s).toNat % 8)).2
            then (operandC rs3 s).getLsbD (j - (relTable ((operandB rs2 s).toNat % 8)).1)
            else (operandA rs1 s).getLsbD j

/-- For all register numbers and every state, with a, b and c what the reads of rs1, rs2 and rs3 yield: the word of
SUBBLK is its match value with the register numbers in their fields and decodes back; exec answers a next state in
which X[rd] is the choice of the tree of R117 on the thresholds rel_1 to rel_7 of a and q = b, and STATUS is as
before; no other register, LASTCMD, reply or host operation changes. (R117, R120) -/
def Obligations.SubblkIsTheTreesChoice : Prop :=
  ∀ (rd rs1 rs2 : Reg) (s : State),
    EncodedAs (.subblk rd rs1 rs2) (commandWord 0x16 rd.val rs1.val rs2.val 0) ∧
    Completes (.subblk rd rs1 rs2) s rd s.status fun v => v.toNat = phaseCChoice (relCount (operandA rs1 s)) (operandB rs2 s).toNat

/-- For all register numbers and every state, with a, b and c what the reads of rs1, rs2 and rs3 yield: the word of
SUBBLK0 is its match value with the register numbers in their fields and decodes back; exec answers a next state
in which X[rd] is the choice of the tree of R117 on the thresholds 64*k - rel_k modulo 2^64 of a and q = b, and
STATUS is as before; no other register, LASTCMD, reply or host operation changes. (43_counter_index.md R121
(operands, encoding, pseudocode, STATUS), 43_counter_index.md R117) -/
def Obligations.SubblkZeroIsTheTreesChoice : Prop :=
  ∀ (rd rs1 rs2 : Reg) (s : State),
    EncodedAs (.subblk0 rd rs1 rs2) (commandWord 0x96 rd.val rs1.val rs2.val 0) ∧
    Completes (.subblk0 rd rs1 rs2) s rd s.status fun v => v.toNat = phaseCChoice (relZeros (operandA rs1 s)) (operandB rs2 s).toNat

/-- For all register numbers and every state, with a, b and c what the reads of rs1, rs2 and rs3 yield: the word of
ABSGET is its match value with the register numbers in their fields and decodes back; exec answers a next state in
which X[rd] is a and STATUS is as before; no other register, LASTCMD, reply or host operation changes. (R115) -/
def Obligations.AbsgetCopies : Prop :=
  ∀ (rd rs1 : Reg) (s : State),
    EncodedAs (.absget rd rs1) (commandWord 0x17 rd.val rs1.val 0 0) ∧
    Completes (.absget rd rs1) s rd s.status fun v => v = (operandA rs1 s)

/-- For all register numbers and every state, with a, b and c what the reads of rs1, rs2 and rs3 yield: the word of
ABSGET0 is its match value with the register numbers in their fields and decodes back; exec answers a next state
in which X[rd] is 512*b - a modulo 2^64 and STATUS is as before; no other register, LASTCMD, reply or host
operation changes. (R116) -/
def Obligations.AbsgetZeroIsTheComplement : Prop :=
  ∀ (rd rs1 rs2 : Reg) (s : State),
    EncodedAs (.absget0 rd rs1 rs2) (commandWord 0x97 rd.val rs1.val rs2.val 0) ∧
    Completes (.absget0 rd rs1 rs2) s rd s.status fun v => (v.toNat : Int) = (Config.L * (operandB rs2 s).toNat - (operandA rs1 s).toNat) % 2 ^ 64

/-- For all register numbers and every state, with a, b and c what the reads of rs1, rs2 and rs3 yield: the word of
ADD is its match value with the register numbers in their fields and decodes back; exec answers a next state in
which X[rd] is a + b modulo 2^64 and STATUS is as before; no other register, LASTCMD, reply or host operation
changes. (R135) -/
def Obligations.AddWraps : Prop :=
  ∀ (rd rs1 rs2 : Reg) (s : State),
    EncodedAs (.add rd rs1 rs2) (commandWord 0x20 rd.val rs1.val rs2.val 0) ∧
    Completes (.add rd rs1 rs2) s rd s.status fun v => v.toNat = ((operandA rs1 s).toNat + (operandB rs2 s).toNat) % 2 ^ 64

/-- For all register numbers and every state, with a, b and c what the reads of rs1, rs2 and rs3 yield: the word of
SUB is its match value with the register numbers in their fields and decodes back; exec answers a next state in
which X[rd] is a - b modulo 2^64 and STATUS is as before; no other register, LASTCMD, reply or host operation
changes. (R136) -/
def Obligations.SubWraps : Prop :=
  ∀ (rd rs1 rs2 : Reg) (s : State),
    EncodedAs (.sub rd rs1 rs2) (commandWord 0x21 rd.val rs1.val rs2.val 0) ∧
    Completes (.sub rd rs1 rs2) s rd s.status fun v => (v.toNat : Int) = ((operandA rs1 s).toNat - (operandB rs2 s).toNat : Int) % 2 ^ 64

/-- For every word x and count k below popcount(x), the recipe of R85 gives selw_core(x, k) below 64 with popcount(x &
mask(selw_core + 1)) = k + 1, and no smaller m has it. (R87) -/
def Obligations.RecipeIsTheClosedForm : Prop :=
  ∀ x k : Word, k.toNat < popcount x →
    selwCore x k < 64 ∧ popcount (x &&& mask (selwCore x k + 1)) = k.toNat + 1 ∧
      ∀ m, m < selwCore x k → popcount (x &&& mask (m + 1)) ≠ k.toNat + 1

/-- For every word x: each 2-bit lane after the first step, each 4-bit lane after the second and each byte after the
third holds the number of 1 bits of x in its place; byte j after the multiply is the number of 1 bits of bytes 0
to j; and when k + 1 is at most 64, the high bit of byte j of step 2 is set exactly when byte j is at least k + 1.
(R86) -/
def Obligations.SwarLanesCountBits : Prop :=
  ∀ x k : Word,
    (∀ m, m < 32 → ((swarHalves x).extractLsb' (2 * m) 2).toNat = onesBelow (x >>> (2 * m)) 2) ∧
    (∀ m, m < 16 →
      ((swarPairs (swarHalves x)).extractLsb' (4 * m) 4).toNat = onesBelow (x >>> (4 * m)) 4) ∧
    (∀ j, j < 8 →
      (byteLane (swarNibbles (swarPairs (swarHalves x))) j).toNat = onesBelow (x >>> (8 * j)) 8) ∧
    (∀ j, j < 8 → (byteLane (prefixCounts x) j).toNat = onesBelow x (8 * j + 8)) ∧
    (k.toNat + 1 ≤ 64 → ∀ j, j < 8 →
      ((answerMask (prefixCounts x) k).getLsbD (8 * j + 7) = true ↔
        k.toNat + 1 ≤ (byteLane (prefixCounts x) j).toNat))

/-- If T1 to T7 do not decrease and T0 is 0, then the j the tree gives has T_j at most q, and every larger index has a
threshold above q; among equal thresholds the largest index wins. (R118) -/
def Obligations.TreeGivesTheLargestThreshold : Prop :=
  ∀ (T : Fin 8 → Word) (q : Word), T 0 = 0#64 → (∀ i j : Fin 8, i ≤ j → T i ≤ T j) →
    T (phaseCTree T q) ≤ q ∧ ∀ j : Fin 8, phaseCTree T q < j → q < T j

/-- For every rel word v, field k and value x: field k of setfield(v, k, x) is the low bits of x for k not 0, and
every field j other than k reads as in v. (43_counter_index.md R105, 43_counter_index.md R107, 43_counter_index.md
R104) -/
def Obligations.FieldReadAfterWrite : Prop :=
  ∀ (v x : Word) (k j : Fin 8),
    (k ≠ 0 → (relField (setField v k x) k).toNat = x.toNat % 2 ^ relWidth k) ∧
    (j ≠ k → relField (setField v k x) j = relField v j)

/-- If two rel words agree on bits 58:0, then every field, every complemented field and every choice of the tree on
them are equal; and setfield leaves bits 63:59 as they are. (43_counter_index.md R106, 92_eei_decisions.md D13) -/
def Obligations.HighRelBitsAreIgnoredAndKept : Prop :=
  (∀ v v' q : Word, (∀ i, i < 59 → v.getLsbD i = v'.getLsbD i) →
    (∀ k, relField v k = relField v' k ∧ relField0 v k = relField0 v' k) ∧
      phaseCTree (relField v) q = phaseCTree (relField v') q ∧
      phaseCTree (relField0 v) q = phaseCTree (relField0 v') q) ∧
  (∀ (v x : Word) (k : Fin 8) (i : Nat), 59 ≤ i →
    (setField v k x).getLsbD i = v.getLsbD i)

/-- For every bit position i, abs word, rel word and word w, with rank_id = i >> 9, phase = (i >> 6) mod 8 and r =
i[5:0]: the sum modulo 2^64 of the values of ABSGET0, RELGET0 and PCNTLO0 is i minus the sum of the values of
ABSGET, RELGET and PCNTLO. (43_counter_index.md R126, 43_counter_index.md R108, 43_counter_index.md R116,
41_popcount.md R84) -/
def Obligations.ZeroCountsSumToTheComplement : Prop :=
  ∀ i abs rel w : Word,
    absZeros abs (i >>> 9) + relField0 rel (fieldIndex (i >>> 6)) +
        zext (popcount (~~~w &&& mask (bitOffset i))) =
      i - (abs + relField rel (fieldIndex (i >>> 6)) + zext (popcount (w &&& mask (bitOffset i))))

/-- If two states agree on everything but the contents of registers that a reset event has left unspecified, then both
steps answer next states, which again agree on everything but the contents of such registers, or both are the same
fault, which names such a register that the host operation reads: no value that such a register keeps through a
reset, or is given once by it, can be seen. Where SELW_OOR enters (log entry 3), that both runs take the same one
is the model's choice (log entry 4). (10_state.md R34, 92_eei_decisions.md D29, 20_memory.md R46, 30_encoding.md
R70, log entries 4 and 16 (notes/assumptions)) -/
def Obligations.UnspecifiedContentsNeverMatter : Prop :=
  ∀ s s' : State, AgreeOnSpecified s s' →
    (∃ t t', step s = .next t ∧ step s' = .next t' ∧ AgreeOnSpecified t t') ∨
    (∃ r ∈ registersRead s, originOf r s = .unspecified ∧
      step s = .fault (.unspecifiedRead r) ∧ step s' = .fault (.unspecifiedRead r))

/-- For every register r, state s and place operand of the read in its host operation: unless a reset event has left r
unspecified, the read yields what r holds; while it is unspecified, the read yields the free value that belongs to
this host operation (draws), this read of it and this register, so no other read need yield the same. Of a
register written since reset, the first clause is the spec's. THE MODEL'S CHOICES: of a register never written
since State.reset, that clause yields the 0 the model names there (log entry 1, DESIGN CHOICE, unsafe), and the
second clause is log entry 8 (DEDUCED). The spec gives such reads no value and asks a model to fault there: step
stops before a read of the second kind, so that its free value never reaches a run, and puts one of the first kind
on record (log entry 16). (log entry 1 (notes/assumptions/1.md), log entry 8 (notes/assumptions/8.md), 00_scope.md
R11, 10_state.md R23) -/
def Obligations.ReadsYieldWhatIsHeldUnlessUnspecified : Prop :=
  ∀ (operand : Fin 3) (r : Reg) (s : State),
    (originOf r s ≠ .unspecified → readSource operand r s = readReg r s) ∧
    (originOf r s = .unspecified →
      readSource operand r s = Config.unspecifiedRead s.draws operand r)

/-- For every state s. A host read of a register that a reset event has left unspecified is a fault that names it, and
so is a command with a source that is (naming such a source). Where State.reset still names the value of the
register a host read asks for, the step answers a next state and the read goes on record, with the operation and
the register. Where no source of a command is unspecified, the step answers a next state with one entry on record
for each source not written since State.reset. For every next state t: nothing is put on record exactly when the
operation reads only written registers, a register the format does not use not counted, and nothing is ever taken
off the record, by a reset either. THE MODEL'S CHOICE (log entries 1 and 16): R34 asks for a fault in both cases,
and this row asks that State.reset name a value and that its read be no fault. (10_state.md R34,
92_eei_decisions.md D29, 30_encoding.md R70, 20_memory.md R46, log entries 1 and 16 (notes/assumptions)) -/
def Obligations.UnwrittenReadsAreFaults : Prop :=
  ∀ s : State,
    (∀ (a : PortAddr) (rest : List HostEvent) (r : Reg), s.host = .hread a :: rest →
      a.toNat = r.val →
      (originOf r s = .unspecified → step s = .fault (.unspecifiedRead r)) ∧
      (originOf r s = .named →
        ∃ t, step s = .next t ∧ t.readFaults = ⟨s.draws + 1, r⟩ :: s.readFaults)) ∧
    (∀ (d : Word) (rest : List HostEvent) (i : Instr), s.host = .hwrite 0x8#4 d :: rest →
      decodeData d = .legal i →
      (∀ r ∈ sourcesOf i, originOf r s = .unspecified →
        ∃ q ∈ sourcesOf i, originOf q s = .unspecified ∧ step s = .fault (.unspecifiedRead q)) ∧
      ((∀ r ∈ sourcesOf i, originOf r s ≠ .unspecified) →
        ∃ t, step s = .next t ∧
          ∀ r ∈ sourcesOf i, isWritten r s = false → ⟨s.draws + 1, r⟩ ∈ t.readFaults)) ∧
    (∀ t, step s = .next t →
      (t.readFaults = s.readFaults ↔ readsOnlyWritten s = true) ∧
      (∀ f ∈ s.readFaults, f ∈ t.readFaults))

/-- If n steps take s to t, then the record of reads of registers not written since State.reset (log entry 16) is the
same in t as in s exactly when each of the n host operations reads only registers written since reset.
(10_state.md R34, 70_reset_and_hazards.md R163, log entry 16 (notes/assumptions/16.md)) -/
def Obligations.RunsAreFreeOfFaultsWhenOnlyWrittenIsRead : Prop :=
  ∀ (n : Nat) (s t : State), core.run n s = .next t →
    (State.readFaults t = s.readFaults ↔ runReadsOnlyWritten n s = true)

/-- For every n and every state s in which no register is left unspecified (State.reset is one), if no reset is among
the next n host operations, n steps answer a next state, in which again no register is unspecified and whose host
operations still to come are those of s without the first n. (60_exceptions.md R140, 20_memory.md R51, 10_state.md
R33) -/
def Obligations.RunsWithoutResetNeverStop : Prop :=
  ∀ (n : Nat) (s : State), (∀ r, originOf r s ≠ .unspecified) → .reset ∉ s.host.take n →
    ∃ t, core.run n s = .next t ∧ State.host t = s.host.drop n ∧ ∀ r, originOf r t ≠ .unspecified
end

