-- ==== Sys2Proof/Laws/Bits.lean ====
section
/-! SUPPORT. The machine's counts of bits and their plain meaning. -/

namespace Sys2Proof.Machine

/-- `popcountBelow` counts the 1 bits below `n`. -/
theorem popcountBelow_eq_countP {w : Nat} (v : BitVec w) (n : Nat) :
    popcountBelow v n = (List.range n).countP fun i => v.getLsbD i := by
  induction n with
  | zero => rfl
  | succ n ih =>
    rw [popcountBelow, ih, List.range_succ, List.countP_append]
    cases h : v.getLsbD n <;> simp [h]

theorem popcount_eq_onesBelow (v : Word) : popcount v = onesBelow v 64 :=
  popcountBelow_eq_countP v 64

/-- Of the bits below `n`, each is 1 or 0. -/
theorem onesBelow_add_zerosBelow (v : Word) (n : Nat) : onesBelow v n + zerosBelow v n = n := by
  unfold onesBelow zerosBelow
  induction n with
  | zero => rfl
  | succ n ih =>
    rw [List.range_succ, List.countP_append, List.countP_append]
    cases h : v.getLsbD n <;> simp [h] <;> omega

theorem popcountBelow_le {w : Nat} (v : BitVec w) (n : Nat) : popcountBelow v n ≤ n := by
  induction n with
  | zero => exact Nat.le_refl 0
  | succ n ih => rw [popcountBelow]; cases v.getLsbD n <;> simp <;> omega

theorem getLsbD_mask (r i : Nat) (h : r ≤ 64) : (mask r).getLsbD i = decide (i < r) := by
  have hm : mask r = BitVec.ofNat 64 (2 ^ r - 1) := by
    unfold mask
    apply BitVec.eq_of_toNat_eq
    interval_cases r <;> rfl
  rw [hm, BitVec.getLsbD_ofNat, Nat.testBit_two_pow_sub_one]
  by_cases hi : i < r
  · simp [hi]; omega
  · simp [hi]

/-- The 1 bits of `v & mask(r)` are those of `v` below `r`. -/
theorem popcount_and_mask (v : Word) (r : Nat) (h : r ≤ 64) :
    popcount (v &&& mask r) = onesBelow v r := by
  rw [popcount_eq_onesBelow]
  unfold onesBelow
  have hs : List.range 64 = List.range r ++ (List.range (64 - r)).map (r + ·) := by
    rw [← List.range_add]; congr 1; omega
  rw [hs, List.countP_append]
  have h1 : (List.range r).countP (fun i => (v &&& mask r).getLsbD i) =
      (List.range r).countP fun i => v.getLsbD i :=
    List.countP_congr fun i hi => by
      simp [BitVec.getLsbD_and, getLsbD_mask r i h, List.mem_range.mp hi]
  have h2 : ((List.range (64 - r)).map (r + ·)).countP (fun i => (v &&& mask r).getLsbD i) = 0 := by
    rw [List.countP_eq_zero]
    intro i hi
    obtain ⟨j, -, rfl⟩ := List.mem_map.mp hi
    simp [BitVec.getLsbD_and, getLsbD_mask r _ h]
  rw [h1, h2, Nat.add_zero]

/-- The 1 bits of the complement are the 0 bits. -/
theorem onesBelow_not (v : Word) (n : Nat) (h : n ≤ 64) : onesBelow (~~~v) n = zerosBelow v n :=
  List.countP_congr fun i hi => by
    have : i < 64 := Nat.lt_of_lt_of_le (List.mem_range.mp hi) h
    simp [this]

theorem onesBelow_le (v : Word) (n : Nat) : onesBelow v n ≤ n := by
  have := onesBelow_add_zerosBelow v n; omega

theorem zerosBelow_le (v : Word) (n : Nat) : zerosBelow v n ≤ n := by
  have := onesBelow_add_zerosBelow v n; omega

/-- Counting on from bit `m`. -/
theorem onesBelow_add (v : Word) (m n : Nat) :
    onesBelow v (m + n) = onesBelow v m + (List.range n).countP fun i => v.getLsbD (m + i) := by
  unfold onesBelow; rw [List.range_add, List.countP_append, List.countP_map]; rfl

theorem zext_toNat {n : Nat} (h : n < 2 ^ 64) : (zext n).toNat = n := by
  unfold zext; rw [BitVec.toNat_ofNat, Nat.mod_eq_of_lt h]

theorem bitOffset_eq_mod (b : Word) : bitOffset b = b.toNat % 64 := by unfold bitOffset; simp

theorem fieldIndex_val (b : Word) : (fieldIndex b).val = b.toNat % 8 := by unfold fieldIndex; simp

theorem tableIndex_val (b : Word) : (tableIndex b).val = b.toNat % 8 := by unfold tableIndex; simp

end Sys2Proof.Machine
end

