-- ==== Sys2Proof/Laws/Decode.lean ====
section
/-! SUPPORT. Taking a command word apart and putting it together again, field by field. -/

namespace Sys2Proof

open Machine

/-- The value of a joined word is the sum of its fields, each at its lowest bit (30_encoding.md R60). -/
theorem joinWord_toNat (c : Command) :
    (joinWord c).toNat = c.reserved.toNat * 2 ^ 20 + c.rs3.toNat * 2 ^ 17 + c.rs2.toNat * 2 ^ 14 +
      c.rs1.toNat * 2 ^ 11 + c.rd.toNat * 2 ^ 8 + c.inv.toNat * 2 ^ 7 + c.fn.toNat := by
  have append_toNat : ∀ {m n} (x : BitVec m) (y : BitVec n),
      (x ++ y).toNat = x.toNat * 2 ^ n + y.toNat := by
    intro m n x y
    rw [BitVec.toNat_append, Nat.shiftLeft_eq, Nat.mul_comm, Nat.two_pow_add_eq_or_of_lt y.isLt]
  unfold joinWord
  simp only [append_toNat]
  omega

theorem splitWord_joinWord (c : Command) : splitWord (joinWord c) = c := by
  have h := joinWord_toNat c
  generalize joinWord c = w at h
  cases c with
  | mk reserved rs3 rs2 rs1 rd inv fn =>
    have := reserved.isLt
    have := rs3.isLt
    have := rs2.isLt
    have := rs1.isLt
    have := rd.isLt
    have := inv.isLt
    have := fn.isLt
    simp only at h
    simp only [splitWord, Command.mk.injEq]
    refine ⟨?_, ?_, ?_, ?_, ?_, ?_, ?_⟩ <;> apply BitVec.eq_of_toNat_eq <;>
      rw [BitVec.extractLsb'_toNat, Nat.shiftRight_eq_div_pow] <;> omega

theorem joinWord_splitWord (w : Cmd) : joinWord (splitWord w) = w := by
  apply BitVec.eq_of_toNat_eq
  rw [joinWord_toNat]
  simp only [splitWord, BitVec.extractLsb'_toNat, Nat.shiftRight_eq_div_pow]
  have := w.isLt
  omega

theorem regOfBits_regBits (r : Reg) : regOfBits (regBits r) = r := by
  revert r; decide

theorem regBits_regOfBits (b : BitVec 3) : regBits (regOfBits b) = b := by
  revert b; decide

theorem regBits_toNat (r : Reg) : (regBits r).toNat = r.val := by
  revert r; decide

/-- The row of a mnemonic is found under its function number and `inv` bit: no two rows share both
(30_encoding.md R65). -/
theorem mnemonicAt_fnOf (m : Mnemonic) : mnemonicAt (fnOf m) (invOf m) = some m := by
  cases m <;> rfl

/-- A row found under a function number and an `inv` bit has them. -/
theorem fnOf_of_mnemonicAt {fn : BitVec 7} {inv : BitVec 1} {m : Mnemonic}
    (h : mnemonicAt fn inv = some m) : fnOf m = fn ∧ invOf m = inv := by
  have := List.find?_some h
  simpa using this

/-- A mask acts on each field by itself. -/
theorem splitWord_and (w v : Cmd) :
    splitWord (w &&& v) =
      { reserved := (splitWord w).reserved &&& (splitWord v).reserved
        rs3 := (splitWord w).rs3 &&& (splitWord v).rs3
        rs2 := (splitWord w).rs2 &&& (splitWord v).rs2
        rs1 := (splitWord w).rs1 &&& (splitWord v).rs1
        rd := (splitWord w).rd &&& (splitWord v).rd
        inv := (splitWord w).inv &&& (splitWord v).inv
        fn := (splitWord w).fn &&& (splitWord v).fn } := by
  simp [splitWord, BitVec.extractLsb'_and]

/-- The value of a command's word. -/
theorem encode_toNat (i : Instr) :
    (encode i).toNat =
      (fieldsOf i).rs3.toNat * 2 ^ 17 + (fieldsOf i).rs2.toNat * 2 ^ 14 +
        (fieldsOf i).rs1.toNat * 2 ^ 11 + (fieldsOf i).rd.toNat * 2 ^ 8 +
        (fieldsOf i).inv.toNat * 2 ^ 7 + (fieldsOf i).fn.toNat := by
  unfold encode
  rw [joinWord_toNat]
  simp [fieldsOf]

end Sys2Proof
end

