-- ==== Sys2Proof/Laws/State.lean ====
section
/-! SUPPORT. One lemma per field per update of State, so that no later proof unfolds a record update. -/

namespace Sys2Proof.Machine

@[simp] theorem writeReg_regs (r : Reg) (v : Word) (s : State) :
    (writeReg r v s).regs = s.regs.set r v := rfl

@[simp] theorem writeReg_lastCmd (r : Reg) (v : Word) (s : State) :
    (writeReg r v s).lastCmd = s.lastCmd := rfl

@[simp] theorem writeReg_status (r : Reg) (v : Word) (s : State) :
    (writeReg r v s).status = s.status := rfl

@[simp] theorem writeReg_host (r : Reg) (v : Word) (s : State) :
    (writeReg r v s).host = s.host := rfl

@[simp] theorem writeReg_replies (r : Reg) (v : Word) (s : State) :
    (writeReg r v s).replies = s.replies := rfl

@[simp] theorem writeReg_origin (r : Reg) (v : Word) (s : State) :
    (writeReg r v s).origin = s.origin.set r .written := rfl

@[simp] theorem writeReg_draws (r : Reg) (v : Word) (s : State) :
    (writeReg r v s).draws = s.draws := rfl

@[simp] theorem flag_regs (c : Condition) (s : State) :
    (flag c s).regs = s.regs := rfl

@[simp] theorem flag_lastCmd (c : Condition) (s : State) :
    (flag c s).lastCmd = s.lastCmd := rfl

@[simp] theorem flag_status (c : Condition) (s : State) :
    (flag c s).status = s.status ||| conditionMask c := rfl

@[simp] theorem flag_host (c : Condition) (s : State) :
    (flag c s).host = s.host := rfl

@[simp] theorem flag_replies (c : Condition) (s : State) :
    (flag c s).replies = s.replies := rfl

@[simp] theorem flag_origin (c : Condition) (s : State) :
    (flag c s).origin = s.origin := rfl

@[simp] theorem flag_draws (c : Condition) (s : State) :
    (flag c s).draws = s.draws := rfl

@[simp] theorem clearStatus_regs (d : Word) (s : State) :
    (clearStatus d s).regs = s.regs := rfl

@[simp] theorem clearStatus_lastCmd (d : Word) (s : State) :
    (clearStatus d s).lastCmd = s.lastCmd := rfl

@[simp] theorem clearStatus_status (d : Word) (s : State) :
    (clearStatus d s).status = s.status &&& ~~~(d.extractLsb' 0 4) := rfl

@[simp] theorem clearStatus_host (d : Word) (s : State) :
    (clearStatus d s).host = s.host := rfl

@[simp] theorem clearStatus_replies (d : Word) (s : State) :
    (clearStatus d s).replies = s.replies := rfl

@[simp] theorem clearStatus_origin (d : Word) (s : State) :
    (clearStatus d s).origin = s.origin := rfl

@[simp] theorem clearStatus_draws (d : Word) (s : State) :
    (clearStatus d s).draws = s.draws := rfl

@[simp] theorem nextDraw_regs (s : State) :
    (nextDraw s).regs = s.regs := rfl

@[simp] theorem nextDraw_lastCmd (s : State) :
    (nextDraw s).lastCmd = s.lastCmd := rfl

@[simp] theorem nextDraw_status (s : State) :
    (nextDraw s).status = s.status := rfl

@[simp] theorem nextDraw_host (s : State) :
    (nextDraw s).host = s.host := rfl

@[simp] theorem nextDraw_replies (s : State) :
    (nextDraw s).replies = s.replies := rfl

@[simp] theorem nextDraw_origin (s : State) :
    (nextDraw s).origin = s.origin := rfl

@[simp] theorem nextDraw_draws (s : State) :
    (nextDraw s).draws = s.draws + 1 := rfl

@[simp] theorem reply_regs (d : Word) (s : State) :
    (reply d s).regs = s.regs := rfl

@[simp] theorem reply_lastCmd (d : Word) (s : State) :
    (reply d s).lastCmd = s.lastCmd := rfl

@[simp] theorem reply_status (d : Word) (s : State) :
    (reply d s).status = s.status := rfl

@[simp] theorem reply_host (d : Word) (s : State) :
    (reply d s).host = s.host := rfl

@[simp] theorem reply_replies (d : Word) (s : State) :
    (reply d s).replies = d :: s.replies := rfl

@[simp] theorem reply_origin (d : Word) (s : State) :
    (reply d s).origin = s.origin := rfl

@[simp] theorem reply_draws (d : Word) (s : State) :
    (reply d s).draws = s.draws := rfl

@[simp] theorem setLastCmd_regs (d : Word) (s : State) :
    (setLastCmd d s).regs = s.regs := rfl

@[simp] theorem setLastCmd_lastCmd (d : Word) (s : State) :
    (setLastCmd d s).lastCmd = d.extractLsb' 0 32 := rfl

@[simp] theorem setLastCmd_status (d : Word) (s : State) :
    (setLastCmd d s).status = s.status := rfl

@[simp] theorem setLastCmd_host (d : Word) (s : State) :
    (setLastCmd d s).host = s.host := rfl

@[simp] theorem setLastCmd_replies (d : Word) (s : State) :
    (setLastCmd d s).replies = s.replies := rfl

@[simp] theorem setLastCmd_origin (d : Word) (s : State) :
    (setLastCmd d s).origin = s.origin := rfl

@[simp] theorem setLastCmd_draws (d : Word) (s : State) :
    (setLastCmd d s).draws = s.draws := rfl

@[simp] theorem resetUnit_regs (s : State) :
    (resetUnit s).regs = s.regs := rfl

@[simp] theorem resetUnit_lastCmd (s : State) :
    (resetUnit s).lastCmd = 0#32 := rfl

@[simp] theorem resetUnit_status (s : State) :
    (resetUnit s).status = 0#4 := rfl

@[simp] theorem resetUnit_host (s : State) :
    (resetUnit s).host = s.host := rfl

@[simp] theorem resetUnit_replies (s : State) :
    (resetUnit s).replies = s.replies := rfl

@[simp] theorem resetUnit_origin (s : State) :
    (resetUnit s).origin = Vector.replicate 8 .unspecified := rfl

@[simp] theorem resetUnit_draws (s : State) :
    (resetUnit s).draws = s.draws := rfl

@[simp] theorem taken_regs (rest : List HostEvent) (s : State) :
    (taken rest s).regs = s.regs := rfl

@[simp] theorem taken_lastCmd (rest : List HostEvent) (s : State) :
    (taken rest s).lastCmd = s.lastCmd := rfl

@[simp] theorem taken_status (rest : List HostEvent) (s : State) :
    (taken rest s).status = s.status := rfl

@[simp] theorem taken_host (rest : List HostEvent) (s : State) :
    (taken rest s).host = rest := rfl

@[simp] theorem taken_replies (rest : List HostEvent) (s : State) :
    (taken rest s).replies = s.replies := rfl

@[simp] theorem taken_origin (rest : List HostEvent) (s : State) :
    (taken rest s).origin = s.origin := rfl

@[simp] theorem taken_draws (rest : List HostEvent) (s : State) :
    (taken rest s).draws = s.draws + 1 := rfl

@[simp] theorem writeReg_readFaults (r : Reg) (v : Word) (s : State) :
    (writeReg r v s).readFaults = s.readFaults := rfl

@[simp] theorem flag_readFaults (c : Condition) (s : State) :
    (flag c s).readFaults = s.readFaults := rfl

@[simp] theorem clearStatus_readFaults (d : Word) (s : State) :
    (clearStatus d s).readFaults = s.readFaults := rfl

@[simp] theorem nextDraw_readFaults (s : State) :
    (nextDraw s).readFaults = s.readFaults := rfl

@[simp] theorem reply_readFaults (d : Word) (s : State) :
    (reply d s).readFaults = s.readFaults := rfl

@[simp] theorem setLastCmd_readFaults (d : Word) (s : State) :
    (setLastCmd d s).readFaults = s.readFaults := rfl

@[simp] theorem resetUnit_readFaults (s : State) :
    (resetUnit s).readFaults = s.readFaults := rfl

@[simp] theorem taken_readFaults (rest : List HostEvent) (s : State) :
    (taken rest s).readFaults = readFaultsAfter s := rfl

end Sys2Proof.Machine
end

