-- ==== Sys2Proof/Laws/Ops.lean ====
section
/-! SUPPORT. What the shared operations do, once: reading a register after each update, and `commit`. -/

namespace Sys2Proof.Machine

theorem readReg_writeReg (r q : Reg) (v : Word) (s : State) :
    readReg q (writeReg r v s) = if q = r then v else readReg q s := by
  unfold readReg
  simp only [writeReg_regs, Fin.getElem_fin, Vector.getElem_set, Fin.ext_iff, eq_comm]

theorem originOf_writeReg (r q : Reg) (v : Word) (s : State) :
    originOf q (writeReg r v s) = if q = r then .written else originOf q s := by
  unfold originOf
  simp only [writeReg_origin, Fin.getElem_fin, Vector.getElem_set, Fin.ext_iff, eq_comm]

theorem isWritten_writeReg (r q : Reg) (v : Word) (s : State) :
    isWritten q (writeReg r v s) = if q = r then true else isWritten q s := by
  unfold isWritten
  rw [originOf_writeReg]
  split <;> rfl

/-- An update that leaves `regs` alone leaves every register alone. -/
theorem readReg_congr {s t : State} (h : t.regs = s.regs) (q : Reg) : readReg q t = readReg q s := by
  unfold readReg; rw [h]

theorem originOf_congr {s t : State} (h : t.origin = s.origin) (q : Reg) :
    originOf q t = originOf q s := by
  unfold originOf; rw [h]

theorem isWritten_congr {s t : State} (h : t.origin = s.origin) (q : Reg) :
    isWritten q t = isWritten q s := by
  unfold isWritten; rw [originOf_congr h]

/-- What a read yields while the contents are not unspecified: what the register holds. -/
theorem readSource_of_specified {r : Reg} {s : State} (h : originOf r s ≠ .unspecified)
    (operand : Fin 3) : readSource operand r s = readReg r s := by
  unfold readSource
  cases ho : originOf r s <;> simp_all

theorem readSource_of_written {r : Reg} {s : State} (h : isWritten r s = true) (operand : Fin 3) :
    readSource operand r s = readReg r s :=
  readSource_of_specified (by unfold isWritten at h; rw [beq_iff_eq.mp h]; decide) operand

/-- What a read yields while the contents are unspecified: a free value. -/
theorem readSource_of_unspecified {r : Reg} {s : State} (h : originOf r s = .unspecified)
    (operand : Fin 3) : readSource operand r s = Config.unspecifiedRead s.draws operand r := by
  unfold readSource; rw [h]

/-- An update that leaves the registers, their origins and the draws alone leaves every read alone. -/
theorem readSource_congr {s t : State} (hr : t.regs = s.regs) (ho : t.origin = s.origin)
    (hd : t.draws = s.draws) (operand : Fin 3) (q : Reg) :
    readSource operand q t = readSource operand q s := by
  unfold readSource; rw [readReg_congr hr, originOf_congr ho, hd]

@[simp] theorem readReg_flag (c : Condition) (q : Reg) (s : State) :
    readReg q (flag c s) = readReg q s := rfl

@[simp] theorem originOf_flag (c : Condition) (q : Reg) (s : State) :
    originOf q (flag c s) = originOf q s := rfl

@[simp] theorem isWritten_flag (c : Condition) (q : Reg) (s : State) :
    isWritten q (flag c s) = isWritten q s := rfl

@[simp] theorem readReg_nextDraw (q : Reg) (s : State) :
    readReg q (nextDraw s) = readReg q s := rfl

@[simp] theorem originOf_nextDraw (q : Reg) (s : State) :
    originOf q (nextDraw s) = originOf q s := rfl

@[simp] theorem isWritten_nextDraw (q : Reg) (s : State) :
    isWritten q (nextDraw s) = isWritten q s := rfl

@[simp] theorem readReg_setLastCmd (d : Word) (q : Reg) (s : State) :
    readReg q (setLastCmd d s) = readReg q s := rfl

@[simp] theorem originOf_setLastCmd (d : Word) (q : Reg) (s : State) :
    originOf q (setLastCmd d s) = originOf q s := rfl

@[simp] theorem isWritten_setLastCmd (d : Word) (q : Reg) (s : State) :
    isWritten q (setLastCmd d s) = isWritten q s := rfl

@[simp] theorem readReg_reply (d : Word) (q : Reg) (s : State) :
    readReg q (reply d s) = readReg q s := rfl

@[simp] theorem originOf_reply (d : Word) (q : Reg) (s : State) :
    originOf q (reply d s) = originOf q s := rfl

@[simp] theorem isWritten_reply (d : Word) (q : Reg) (s : State) :
    isWritten q (reply d s) = isWritten q s := rfl

@[simp] theorem readReg_clearStatus (d : Word) (q : Reg) (s : State) :
    readReg q (clearStatus d s) = readReg q s := rfl

@[simp] theorem originOf_clearStatus (d : Word) (q : Reg) (s : State) :
    originOf q (clearStatus d s) = originOf q s := rfl

@[simp] theorem isWritten_clearStatus (d : Word) (q : Reg) (s : State) :
    isWritten q (clearStatus d s) = isWritten q s := rfl

@[simp] theorem readReg_taken (rest : List HostEvent) (q : Reg) (s : State) :
    readReg q (taken rest s) = readReg q s := rfl

@[simp] theorem originOf_taken (rest : List HostEvent) (q : Reg) (s : State) :
    originOf q (taken rest s) = originOf q s := rfl

@[simp] theorem isWritten_taken (rest : List HostEvent) (q : Reg) (s : State) :
    isWritten q (taken rest s) = isWritten q s := rfl

@[simp] theorem readReg_resetUnit (q : Reg) (s : State) : readReg q (resetUnit s) = readReg q s := rfl

@[simp] theorem originOf_resetUnit (q : Reg) (s : State) :
    originOf q (resetUnit s) = .unspecified := by
  unfold originOf; simp

@[simp] theorem isWritten_resetUnit (q : Reg) (s : State) : isWritten q (resetUnit s) = false := by
  unfold isWritten; simp

/-- STATUS with every condition of a list flagged. -/
def statusWith (cs : List Condition) (st : BitVec 4) : BitVec 4 :=
  cs.foldl (fun t c => t ||| conditionMask c) st

@[simp] theorem statusWith_nil (st : BitVec 4) : statusWith [] st = st := rfl

@[simp] theorem statusWith_one (c : Condition) (st : BitVec 4) :
    statusWith [c] st = st ||| conditionMask c := rfl

/-- Flagging changes STATUS and nothing else. -/
theorem flagAll_eq (cs : List Condition) (s : State) :
    flagAll cs s = { s with status := statusWith cs s.status } := by
  induction cs generalizing s with
  | nil => rfl
  | cons c cs ih => exact ih (flag c s)

/-- `commit` writes the destination and flags the conditions, and that is all. -/
theorem commit_eq (rd : Reg) (v : Word) (cs : List Condition) (s : State) :
    commit rd v cs s = { writeReg rd v s with status := statusWith cs s.status } :=
  flagAll_eq cs (writeReg rd v s)

@[simp] theorem commit_regs (rd : Reg) (v : Word) (cs : List Condition) (s : State) :
    (commit rd v cs s).regs = s.regs.set rd v := by rw [commit_eq]; rfl

@[simp] theorem commit_origin (rd : Reg) (v : Word) (cs : List Condition) (s : State) :
    (commit rd v cs s).origin = s.origin.set rd .written := by rw [commit_eq]; rfl

@[simp] theorem commit_status (rd : Reg) (v : Word) (cs : List Condition) (s : State) :
    (commit rd v cs s).status = statusWith cs s.status := by rw [commit_eq]

@[simp] theorem commit_lastCmd (rd : Reg) (v : Word) (cs : List Condition) (s : State) :
    (commit rd v cs s).lastCmd = s.lastCmd := by rw [commit_eq]; rfl

@[simp] theorem commit_host (rd : Reg) (v : Word) (cs : List Condition) (s : State) :
    (commit rd v cs s).host = s.host := by rw [commit_eq]; rfl

@[simp] theorem commit_replies (rd : Reg) (v : Word) (cs : List Condition) (s : State) :
    (commit rd v cs s).replies = s.replies := by rw [commit_eq]; rfl

@[simp] theorem commit_draws (rd : Reg) (v : Word) (cs : List Condition) (s : State) :
    (commit rd v cs s).draws = s.draws := by rw [commit_eq]; rfl

@[simp] theorem commit_readFaults (rd : Reg) (v : Word) (cs : List Condition) (s : State) :
    (commit rd v cs s).readFaults = s.readFaults := by rw [commit_eq]; rfl

theorem readReg_commit (rd q : Reg) (v : Word) (cs : List Condition) (s : State) :
    readReg q (commit rd v cs s) = if q = rd then v else readReg q s := by
  rw [← readReg_writeReg rd q v s]
  exact readReg_congr (by simp) q

theorem originOf_commit (rd q : Reg) (v : Word) (cs : List Condition) (s : State) :
    originOf q (commit rd v cs s) = if q = rd then .written else originOf q s := by
  rw [← originOf_writeReg rd q v s]
  exact originOf_congr (by simp) q

theorem isWritten_commit (rd q : Reg) (v : Word) (cs : List Condition) (s : State) :
    isWritten q (commit rd v cs s) = if q = rd then true else isWritten q s := by
  rw [← isWritten_writeReg rd q v s]
  exact isWritten_congr (by simp) q

end Sys2Proof.Machine
end

