-- ==== Sys2Proof/Laws/HostPort.lean ====
section
/-! SUPPORT. The port address decode and the STATUS bits. -/

namespace Sys2Proof.Machine

/-- Addresses 0x0 to 0x7 are the operand registers (20_memory.md R42). -/
theorem portSlot_of_reg {a : PortAddr} {r : Reg} (h : a.toNat = r.val) : portSlot a = .x r := by
  unfold portSlot
  have := r.isLt
  rw [dif_pos (by omega)]
  congr

theorem portSlot_of_ten_le {a : PortAddr} (h : 10 ≤ a.toNat) : portSlot a = .reserved := by
  revert a; decide

theorem ten_le_of_reserved {a : PortAddr} (h : portSlot a = .reserved) : 10 ≤ a.toNat := by
  revert a; decide

theorem portSlot_eq_cmd {a : PortAddr} (h : portSlot a = .cmd) : a = 0x8#4 := by
  revert a; decide

theorem portSlot_eq_status {a : PortAddr} (h : portSlot a = .status) : a = 0x9#4 := by
  revert a; decide

/-- Flagging a condition sets its bit and no other. -/
theorem getLsbD_or_conditionMask (c c' : Condition) (x : BitVec 4) :
    (x ||| conditionMask c').getLsbD (conditionBit c) =
      (x.getLsbD (conditionBit c) || decide (c = c')) := by
  cases c <;> cases c' <;> simp [conditionMask, conditionBit]

/-- A host operation takes itself off the list and adds none. -/
theorem takeHostEvent_host (s : State) : (takeHostEvent s).1.host = s.host.tail := by
  unfold takeHostEvent
  split
  · rename_i h; rw [h]; rfl
  · rename_i e rest h
    rw [h]
    cases e with
    | reset => rfl
    | hread a =>
      show (hostRead (portSlot a) (taken rest s)).host = rest
      unfold hostRead
      split <;> rfl
    | hwrite a d =>
      show (hostWrite (portSlot a) d (taken rest s)).1.host = rest
      unfold hostWrite issueCommand
      split <;> (try split) <;> rfl

end Sys2Proof.Machine
end

