-- ==== Sys2Proof/Laws/Exec.lean ====
section
/-! SUPPORT. Everything a command and a step can do, said once. -/

namespace Sys2Proof.Machine

/-- What `selectInto` does: one of two commits, the second with a free value and SELR. -/
theorem selectInto_cases (rd : Reg) (w a b c : Word) (inv : Bool) (s : State) :
    (b.toNat < popcount w ∧
      selectInto rd w a b c inv s = commit rd (c + zext (selwCore w b)) [] s) ∨
    (¬ b.toNat < popcount w ∧
      selectInto rd w a b c inv s =
        commit rd (c + (Config.selwOor s.draws a b c inv).setWidth 64) [.selr] s) := by
  unfold selectInto
  split
  · exact .inl ⟨‹_›, rfl⟩
  · exact .inr ⟨‹_›, rfl⟩

/-- Everything `exec` can do: the destination takes a value; STATUS takes at most SELR or FOVF; nothing else changes. -/
theorem exec_cases (i : Instr) (s : State) :
    (∃ v, exec i s = .next (commit (destOf i) v [] s)) ∨
    (∃ v, (mnemonicOf i = .selw ∨ mnemonicOf i = .selw0) ∧
      exec i s = .next (commit (destOf i) v [.selr] s)) ∨
    (∃ v, mnemonicOf i = .relset ∧ exec i s = .next (commit (destOf i) v [.fovf] s)) := by
  cases i
  case selw rd rs1 rs2 rs3 =>
    obtain ⟨-, h⟩ | ⟨-, h⟩ :=
      selectInto_cases rd (operandA rs1 s) (operandA rs1 s) (operandB rs2 s) (operandC rs3 s) false s
    · exact .inl ⟨_, congrArg _ h⟩
    · exact .inr (.inl ⟨_, .inl rfl, congrArg _ h⟩)
  case selw0 rd rs1 rs2 rs3 =>
    obtain ⟨-, h⟩ | ⟨-, h⟩ :=
      selectInto_cases rd (~~~(operandA rs1 s)) (operandA rs1 s) (operandB rs2 s) (operandC rs3 s) true s
    · exact .inl ⟨_, congrArg _ h⟩
    · exact .inr (.inl ⟨_, .inr rfl, congrArg _ h⟩)
  case relset rd rs1 rs2 rs3 =>
    by_cases hf : fieldOverflow (fieldIndex (operandB rs2 s)) (operandC rs3 s) = true
    · exact .inr (.inr ⟨_, rfl, by simp only [exec, execRelset, hf, if_true]; rfl⟩)
    · exact .inl ⟨_, by simp only [exec, execRelset, hf]; rfl⟩
  all_goals exact .inl ⟨_, rfl⟩

/-- Everything one host operation can do before the command it may issue runs, by the operation. -/
theorem takeHostEvent_cases (s : State) :
    (s.host = [] ∧ takeHostEvent s = (s, none)) ∨
    (∃ rest, s.host = .reset :: rest ∧
      takeHostEvent s = (resetUnit (taken rest s), none)) ∨
    (∃ a rest, s.host = .hread a :: rest ∧
      takeHostEvent s = (hostRead (portSlot a) (taken rest s), none)) ∨
    (∃ a d rest, s.host = .hwrite a d :: rest ∧
      takeHostEvent s = hostWrite (portSlot a) d (taken rest s)) := by
  unfold takeHostEvent
  cases h : s.host with
  | nil => exact .inl ⟨rfl, rfl⟩
  | cons e rest =>
    cases e with
    | reset => exact .inr (.inl ⟨rest, rfl, rfl⟩)
    | hread a => exact .inr (.inr (.inl ⟨a, rest, rfl, rfl⟩))
    | hwrite a d => exact .inr (.inr (.inr ⟨a, d, rest, rfl, rfl⟩))

/-- There is no read fault exactly where no register read is unspecified. -/
theorem readFault_eq_none_iff {s : State} : readFault s = none ↔ readsOnlySpecified s = true := by
  simp [readFault, unspecifiedReads, readsOnlySpecified]

theorem readsOnlySpecified_iff {s : State} :
    readsOnlySpecified s = true ↔ ∀ r ∈ registersRead s, originOf r s ≠ .unspecified := by
  simp [readsOnlySpecified]

/-- A read fault names a register that is read and unspecified. -/
theorem readFault_eq_some {s : State} {f : Fault} (h : readFault s = some f) :
    ∃ r ∈ registersRead s, originOf r s = .unspecified ∧ f = .unspecifiedRead r := by
  obtain ⟨r, hr, rfl⟩ := Option.map_eq_some_iff.mp h
  have := List.mem_of_mem_head? hr
  simp only [unspecifiedReads, List.mem_filter, beq_iff_eq] at this
  exact ⟨r, this.1, this.2, rfl⟩

/-- A step that stops at a read fault. -/
theorem step_of_readFault {s : State} {f : Fault} (h : readFault s = some f) : step s = .fault f := by
  unfold step; rw [h]

/-- A step that meets no read fault completes its host operation. -/
theorem step_of_specified {s : State} (h : readsOnlySpecified s = true) :
    step s = completeHostEvent s := by
  unfold step; rw [readFault_eq_none_iff.mpr h]

/-- A step whose host operation issues no legal command. -/
theorem step_of_none {s t : State} (hr : readsOnlySpecified s = true)
    (h : takeHostEvent s = (t, none)) : step s = .next t := by
  rw [step_of_specified hr]; unfold completeHostEvent; rw [h]

/-- A step whose host operation issues the command `i`. -/
theorem step_of_some {s t : State} {i : Instr} (hr : readsOnlySpecified s = true)
    (h : takeHostEvent s = (t, some i)) : step s = exec i t := by
  rw [step_of_specified hr]; unfold completeHostEvent; rw [h]

/-- A step stops at a read fault, or changes the state without running a command, or is `exec` of one. -/
theorem step_cases (s : State) :
    (∃ r ∈ registersRead s, originOf r s = .unspecified ∧ step s = .fault (.unspecifiedRead r)) ∨
    (readsOnlySpecified s = true ∧
      ((∃ t, takeHostEvent s = (t, none) ∧ step s = .next t) ∨
        (∃ t i, takeHostEvent s = (t, some i) ∧ step s = exec i t))) := by
  cases hf : readFault s with
  | some f =>
    obtain ⟨r, hr, ho, rfl⟩ := readFault_eq_some hf
    exact .inl ⟨r, hr, ho, step_of_readFault hf⟩
  | none =>
    have hr := readFault_eq_none_iff.mp hf
    refine .inr ⟨hr, ?_⟩
    cases h : takeHostEvent s with
    | mk t o =>
      cases o with
      | none => exact .inl ⟨t, rfl, step_of_none hr h⟩
      | some i => exact .inr ⟨t, i, rfl, step_of_some hr h⟩

/-- A step that answers a next state has met no read fault. -/
theorem readsOnlySpecified_of_step {s t : State} (h : step s = .next t) :
    readsOnlySpecified s = true := by
  obtain ⟨r, -, -, e⟩ | ⟨hr, -⟩ := step_cases s
  · rw [e] at h; cases h
  · exact hr

/-- Everything a step can do, by the host operation taken: idle, reset, a read, a write to a register, to a reserved
address, to STATUS, to CMD with an illegal word, to CMD with a command. -/
theorem step_inv {s t : State} (h : step s = .next t) :
    (s.host = [] ∧ t = s) ∨
    (∃ rest, s.host = .reset :: rest ∧ t = resetUnit (taken rest s)) ∨
    (∃ a rest, s.host = .hread a :: rest ∧ t = hostRead (portSlot a) (taken rest s)) ∨
    (∃ a d rest r, s.host = .hwrite a d :: rest ∧ portSlot a = .x r ∧
      t = writeReg r d (taken rest s)) ∨
    (∃ a d rest, s.host = .hwrite a d :: rest ∧ portSlot a = .reserved ∧
      t = flag .hadr (taken rest s)) ∨
    (∃ d rest, s.host = .hwrite 0x9#4 d :: rest ∧ t = clearStatus d (taken rest s)) ∨
    (∃ d rest, s.host = .hwrite 0x8#4 d :: rest ∧ (∀ i, decodeData d ≠ .legal i) ∧
      t = flag .ill (setLastCmd d (taken rest s))) ∨
    (∃ d rest i, s.host = .hwrite 0x8#4 d :: rest ∧ decodeData d = .legal i ∧
      exec i (setLastCmd d (taken rest s)) = .next t) := by
  have hr := readsOnlySpecified_of_step h
  obtain ⟨h', e⟩ | ⟨rest, h', e⟩ | ⟨a, rest, h', e⟩ | ⟨a, d, rest, h', e⟩ := takeHostEvent_cases s
  · rw [step_of_none hr e] at h; cases h; exact .inl ⟨h', rfl⟩
  · rw [step_of_none hr e] at h; cases h; exact .inr (.inl ⟨_, h', rfl⟩)
  · rw [step_of_none hr e] at h; cases h; exact .inr (.inr (.inl ⟨_, _, h', rfl⟩))
  · cases hp : portSlot a with
    | x r =>
      rw [hp] at e; rw [step_of_none hr e] at h; cases h
      exact .inr (.inr (.inr (.inl ⟨_, _, _, _, h', hp, rfl⟩)))
    | reserved =>
      rw [hp] at e; rw [step_of_none hr e] at h; cases h
      exact .inr (.inr (.inr (.inr (.inl ⟨_, _, _, h', hp, rfl⟩))))
    | status =>
      rw [hp] at e; rw [step_of_none hr e] at h; cases h
      obtain rfl := portSlot_eq_status hp
      exact .inr (.inr (.inr (.inr (.inr (.inl ⟨_, _, h', rfl⟩)))))
    | cmd =>
      obtain rfl := portSlot_eq_cmd hp
      rw [hp] at e
      simp only [hostWrite, issueCommand] at e
      split at e
      · rename_i c hc
        rw [step_of_none hr e] at h; cases h
        exact .inr (.inr (.inr (.inr (.inr (.inr (.inl ⟨_, _, h', by simp [hc], rfl⟩))))))
      · rename_i i hc
        rw [step_of_some hr e] at h
        exact .inr (.inr (.inr (.inr (.inr (.inr (.inr ⟨_, _, _, h', hc, h⟩))))))

/-- A run of `n + 1` steps is a step and a run of `n`. -/
theorem run_succ (n : Nat) (s : State) :
    core.run (n + 1) s =
      match step s with
      | .next t => core.run n t
      | .fault f => .fault f
      | .refused r => .refused r :=
  (Host.Core.run.eq_def core (n + 1) s).trans (by cases h : step s <;> simp [core, h])

/-- `commit` keeps everything but the destination, its mark and STATUS. -/
theorem keepsAllBut_commit (rd : Reg) (v : Word) (cs : List Condition) (s : State) :
    KeepsAllBut rd s (commit rd v cs s) := by
  constructor <;> simp +contextual [readReg_commit, originOf_commit, isWritten_commit]

/-- A command that ends in `commit` and flags nothing completes. -/
theorem completes_of_commit {i : Instr} {s : State} {rd : Reg} {v : Word} {P : Word → Prop}
    (h : exec i s = .next (commit rd v [] s)) (hP : P v) : Completes i s rd s.status P :=
  ⟨_, h, by simpa [readReg_commit] using hP, by simp, keepsAllBut_commit ..⟩

end Sys2Proof.Machine
end

