-- ==== Sys2Proof/Laws/Lanes.lean ====
section
/-! SUPPORT. Arithmetic on the byte lanes of a word: lane by lane, where no lane carries or borrows. -/

namespace Sys2Proof.Machine

/-- Digit `j` of a number in base 256. -/
def digit256 (n j : Nat) : Nat := n / 256 ^ j % 256

theorem digit256_zero (n : Nat) : digit256 n 0 = n % 256 := by simp [digit256]

theorem digit256_succ (n j : Nat) : digit256 n (j + 1) = digit256 (n / 256) j := by
  unfold digit256
  rw [pow_succ', Nat.div_div_eq_div_mul]

theorem digit256_add (j : Nat) :
    ∀ x y : Nat, (∀ i, i ≤ j → digit256 x i + digit256 y i < 256) →
      digit256 (x + y) j = digit256 x j + digit256 y j := by
  induction j with
  | zero =>
    intro x y h
    have := h 0 le_rfl
    simp only [digit256_zero] at *
    omega
  | succ j ih =>
    intro x y h
    have h0 := h 0 (Nat.zero_le _)
    simp only [digit256_zero] at h0
    rw [digit256_succ, digit256_succ, digit256_succ, show (x + y) / 256 = x / 256 + y / 256 by omega]
    refine ih _ _ fun i hi => ?_
    have := h (i + 1) (by omega)
    rwa [digit256_succ, digit256_succ] at this

theorem digit256_sub (j : Nat) :
    ∀ x y : Nat, y ≤ x → (∀ i, i ≤ j → digit256 y i ≤ digit256 x i) →
      digit256 (x - y) j = digit256 x j - digit256 y j := by
  induction j with
  | zero =>
    intro x y hle h
    have := h 0 le_rfl
    simp only [digit256_zero] at *
    omega
  | succ j ih =>
    intro x y hle h
    have h0 := h 0 (Nat.zero_le _)
    simp only [digit256_zero] at h0
    rw [digit256_succ, digit256_succ, digit256_succ, show (x - y) / 256 = x / 256 - y / 256 by omega]
    refine ih _ _ (by omega) fun i hi => ?_
    have := h (i + 1) (by omega)
    rwa [digit256_succ, digit256_succ] at this

theorem le_of_digit256_le (n : Nat) :
    ∀ x y : Nat, y < 256 ^ n → (∀ i, i < n → digit256 y i ≤ digit256 x i) → y ≤ x := by
  induction n with
  | zero => intro x y h _; simp at h; omega
  | succ n ih =>
    intro x y hy h
    have h0 := h 0 (Nat.succ_pos _)
    simp only [digit256_zero] at h0
    have := ih (x / 256) (y / 256) (by rw [pow_succ'] at hy; omega) fun i hi => by
      have := h (i + 1) (by omega)
      rwa [digit256_succ, digit256_succ] at this
    omega

theorem digit256_mod (n j : Nat) (hj : j < 8) : digit256 (n % 2 ^ 64) j = digit256 n j := by
  unfold digit256
  have h2 : (256 : Nat) ^ j = 2 ^ (8 * j) := by rw [pow_mul]; rfl
  have h3 : (2 : Nat) ^ 64 = 2 ^ (8 * j) * (256 * 2 ^ (56 - 8 * j)) := by
    rw [show (256 : Nat) = 2 ^ 8 from rfl, ← pow_add, ← pow_add]
    congr 1
    omega
  rw [h2, h3, Nat.mod_mul_right_div_self, Nat.mod_mul_right_mod]

theorem byteLane_toNat (v : Word) (j : Nat) : (byteLane v j).toNat = digit256 v.toNat j := by
  unfold byteLane digit256
  rw [BitVec.extractLsb'_toNat, Nat.shiftRight_eq_div_pow, pow_mul]
  rfl

/-- Subtraction where no lane borrows. -/
theorem byteLane_sub (x y : Word)
    (h : ∀ j, j < 8 → (byteLane y j).toNat ≤ (byteLane x j).toNat) (j : Nat) (hj : j < 8) :
    (byteLane (x - y) j).toNat = (byteLane x j).toNat - (byteLane y j).toNat := by
  simp only [byteLane_toNat] at *
  have hle : y.toNat ≤ x.toNat := le_of_digit256_le 8 _ _ y.isLt h
  rw [BitVec.toNat_sub_of_le hle]
  exact digit256_sub j _ _ hle fun i hi => h i (by omega)

/-- Addition where no lane carries. -/
theorem byteLane_add (x y : Word)
    (h : ∀ j, j < 8 → (byteLane x j).toNat + (byteLane y j).toNat < 256) (j : Nat) (hj : j < 8) :
    (byteLane (x + y) j).toNat = (byteLane x j).toNat + (byteLane y j).toNat := by
  simp only [byteLane_toNat] at *
  rw [BitVec.toNat_add, digit256_mod _ _ hj]
  exact digit256_add j _ _ fun i hi => h i (by omega)

/-- The number whose `n` low bytes are 1. -/
def repeatedOnes : Nat → Nat
  | 0 => 0
  | n + 1 => 1 + 256 * repeatedOnes n

theorem digit256_mul_repeatedOnes (n : Nat) :
    ∀ c j, (∀ i, i ≤ j → ((List.range (i + 1)).map (digit256 c)).sum < 256) → j < n →
      digit256 (c * repeatedOnes n) j = ((List.range (j + 1)).map (digit256 c)).sum := by
  induction n with
  | zero => intro c j _ h; omega
  | succ n ih =>
    intro c j hs hj
    rw [repeatedOnes, Nat.mul_add, Nat.mul_one, ← Nat.mul_assoc, Nat.mul_comm c 256, Nat.mul_assoc]
    have hup : ∀ i, i ≤ j → digit256 (256 * (c * repeatedOnes n)) i =
        ((List.range i).map (digit256 c)).sum := by
      intro i hi
      cases i with
      | zero => simp [digit256_zero]
      | succ i =>
        rw [digit256_succ, Nat.mul_div_cancel_left _ (by norm_num)]
        exact ih c i (fun l hl => hs l (by omega)) (by omega)
    have hsum : ∀ i, ((List.range (i + 1)).map (digit256 c)).sum =
        digit256 c i + ((List.range i).map (digit256 c)).sum := by
      intro i; simp [List.range_succ, Nat.add_comm]
    rw [digit256_add, hup j le_rfl, hsum]
    intro i hi
    rw [hup i hi, ← hsum]
    exact hs i hi

/-- The multiply of 42_select_in_word.md R85: byte `j` of the product is the sum of bytes `0` to `j`. -/
theorem byteLane_mul_ones (c : Word) (j : Nat) (hj : j < 8)
    (h : ∀ i, i ≤ j → ((List.range (i + 1)).map fun l => (byteLane c l).toNat).sum < 256) :
    (byteLane (c * 0x0101010101010101#64) j).toNat =
      ((List.range (j + 1)).map fun i => (byteLane c i).toNat).sum := by
  simp only [byteLane_toNat] at *
  rw [BitVec.toNat_mul, digit256_mod _ _ hj]
  exact digit256_mul_repeatedOnes 8 _ j h hj

theorem byteLane_and (x y : Word) (j : Nat) :
    byteLane (x &&& y) j = byteLane x j &&& byteLane y j := by
  unfold byteLane; rw [BitVec.extractLsb'_and]

theorem byteLane_or (x y : Word) (j : Nat) :
    byteLane (x ||| y) j = byteLane x j ||| byteLane y j := by
  unfold byteLane; rw [BitVec.extractLsb'_or]

/-- A bit of a word is a bit of a lane. -/
theorem getLsbD_byteLane (v : Word) (i : Nat) :
    v.getLsbD i = (byteLane v (i / 8)).getLsbD (i % 8) := by
  unfold byteLane
  rw [BitVec.getLsbD_extractLsb']
  simp [Nat.mod_lt]
  congr 1
  omega

/-- A right shift and a mask that drops what comes in from the next lane act lane by lane. -/
theorem byteLane_shiftRight_and (x M : Word) (n : Nat) (m : BitVec 8)
    (hM : ∀ j, j < 8 → byteLane M j = m) (hm : ∀ i, i < 8 → 8 ≤ i + n → m.getLsbD i = false)
    (j : Nat) (hj : j < 8) : byteLane ((x >>> n) &&& M) j = (byteLane x j >>> n) &&& m := by
  rw [byteLane_and, hM j hj]
  apply BitVec.eq_of_getLsbD_eq
  intro i hi
  rw [BitVec.getLsbD_and, BitVec.getLsbD_and]
  by_cases h : 8 ≤ i + n
  · rw [hm i hi h]; simp
  · congr 1
    unfold byteLane
    simp [BitVec.getLsbD_extractLsb', BitVec.getLsbD_ushiftRight, hi]
    have : n + i < 8 := by omega
    simp [this]
    congr 1
    omega

end Sys2Proof.Machine
end

