-- ==== Sys2Proof/Laws/PerInstr.lean ====
section
/-! SUPPORT. Statements about every instruction as syntax, one lemma per constructor. -/

namespace Sys2Proof.Laws.LegalFields

/-- The fields of the command pass the checks of 30_encoding.md R61 and R65, and its row reads the registers the format
uses. -/
def Statement (i : Instr) : Prop :=
  wellFormed i = true ∧
    (Machine.sourcesOf i).length =
      match Machine.formatOf (Machine.mnemonicOf i) with
      | .r1 => 1
      | .r2 => 2
      | .r3 => 3

theorem popcnt (rd rs1 : Reg) : Statement (.popcnt rd rs1) := ⟨rfl, rfl⟩

theorem popcnt0 (rd rs1 : Reg) : Statement (.popcnt0 rd rs1) := ⟨rfl, rfl⟩

theorem pcntlo (rd rs1 rs2 : Reg) : Statement (.pcntlo rd rs1 rs2) := ⟨rfl, rfl⟩

theorem pcntlo0 (rd rs1 rs2 : Reg) : Statement (.pcntlo0 rd rs1 rs2) := ⟨rfl, rfl⟩

theorem selw (rd rs1 rs2 rs3 : Reg) : Statement (.selw rd rs1 rs2 rs3) := ⟨rfl, rfl⟩

theorem selw0 (rd rs1 rs2 rs3 : Reg) : Statement (.selw0 rd rs1 rs2 rs3) := ⟨rfl, rfl⟩

theorem seltab (rd rs1 rs2 : Reg) : Statement (.seltab rd rs1 rs2) := ⟨rfl, rfl⟩

theorem lblk (rd rs1 : Reg) : Statement (.lblk rd rs1) := ⟨rfl, rfl⟩

theorem sblk (rd rs1 : Reg) : Statement (.sblk rd rs1) := ⟨rfl, rfl⟩

theorem soff (rd rs1 : Reg) : Statement (.soff rd rs1) := ⟨rfl, rfl⟩

theorem phase (rd rs1 : Reg) : Statement (.phase rd rs1) := ⟨rfl, rfl⟩

theorem relget (rd rs1 rs2 : Reg) : Statement (.relget rd rs1 rs2) := ⟨rfl, rfl⟩

theorem relget0 (rd rs1 rs2 : Reg) : Statement (.relget0 rd rs1 rs2) := ⟨rfl, rfl⟩

theorem relset (rd rs1 rs2 rs3 : Reg) : Statement (.relset rd rs1 rs2 rs3) := ⟨rfl, rfl⟩

theorem subblk (rd rs1 rs2 : Reg) : Statement (.subblk rd rs1 rs2) := ⟨rfl, rfl⟩

theorem subblk0 (rd rs1 rs2 : Reg) : Statement (.subblk0 rd rs1 rs2) := ⟨rfl, rfl⟩

theorem absget (rd rs1 : Reg) : Statement (.absget rd rs1) := ⟨rfl, rfl⟩

theorem absget0 (rd rs1 rs2 : Reg) : Statement (.absget0 rd rs1 rs2) := ⟨rfl, rfl⟩

theorem add (rd rs1 rs2 : Reg) : Statement (.add rd rs1 rs2) := ⟨rfl, rfl⟩

theorem sub (rd rs1 rs2 : Reg) : Statement (.sub rd rs1 rs2) := ⟨rfl, rfl⟩

end Sys2Proof.Laws.LegalFields
end

