-- ==== Sys2Proof/Laws/RankEntry.lean ====
section
/-! SUPPORT. The fields of a rel word, bit by bit (43_counter_index.md R104 to R107). -/

namespace Sys2Proof.Machine

/-- The seven fields lie within bits 58:0 (43_counter_index.md R106). -/
theorem field_end_le (k : Fin 8) : relLsb k + relWidth k ≤ 59 := by revert k; decide

/-- Two stored fields share no bit. -/
theorem fields_disjoint (j k : Fin 8) (hjk : j ≠ k) (hj : j ≠ 0) (hk : k ≠ 0) :
    relLsb j + relWidth j ≤ relLsb k ∨ relLsb k + relWidth k ≤ relLsb j := by
  revert j k; decide

theorem relTable_eq (k : Fin 8) : relTable k.val = (relLsb k, relWidth k) := by revert k; decide

theorem getLsbD_fieldMask (k : Fin 8) (i : Nat) :
    (mask (relWidth k)).getLsbD i = decide (i < relWidth k) :=
  getLsbD_mask _ _ (by revert k; decide)

/-- Reading a field, bit by bit. -/
theorem getLsbD_relField (v : Word) (k : Fin 8) (hk : k ≠ 0) (i : Nat) :
    (relField v k).getLsbD i = (v.getLsbD (relLsb k + i) && decide (i < relWidth k)) := by
  unfold relField
  rw [if_neg hk, BitVec.getLsbD_and, getLsbD_fieldMask, BitVec.getLsbD_ushiftRight]

/-- Writing a field, bit by bit. -/
theorem getLsbD_setField (v x : Word) (k : Fin 8) (hk : k ≠ 0) (i : Nat) (hi : i < 64) :
    (setField v k x).getLsbD i =
      if relLsb k ≤ i ∧ i < relLsb k + relWidth k then x.getLsbD (i - relLsb k)
      else v.getLsbD i := by
  unfold setField
  rw [if_neg hk]
  simp only [BitVec.getLsbD_or, BitVec.getLsbD_and, BitVec.getLsbD_not, BitVec.getLsbD_shiftLeft,
    getLsbD_fieldMask, hi]
  by_cases h1 : relLsb k ≤ i
  · by_cases h2 : i < relLsb k + relWidth k
    · simp [h1, h2, show i - relLsb k < relWidth k by omega, show ¬ i < relLsb k by omega]
    · simp [h1, h2, show ¬ i - relLsb k < relWidth k by omega]
  · simp [h1, show i < relLsb k by omega]

/-- A field as a number. -/
theorem relField_toNat (v : Word) (k : Fin 8) : (relField v k).toNat = relCount v k.val := by
  have hm : ∀ k : Fin 8, (mask (relWidth k)).toNat = 2 ^ relWidth k - 1 := by decide
  unfold relField relCount
  rw [relTable_eq]
  split
  · rename_i h; subst h; simp [relWidth, Nat.mod_one]
  · rw [BitVec.toNat_and, hm, BitVec.toNat_ushiftRight, Nat.shiftRight_eq_div_pow,
      Nat.and_two_pow_sub_one_eq_mod]

end Sys2Proof.Machine
end

