-- ==== Sys2Proof/Laws/ReadFaults.lean ====
section
/-! SUPPORT. Read faults: when a step stops at one, what the record takes in, and that it only grows. -/

namespace Sys2Proof.Machine

theorem mem_unwrittenReads {r : Reg} {s : State} :
    r ∈ unwrittenReads s ↔ r ∈ registersRead s ∧ isWritten r s = false := by
  simp [unwrittenReads]

theorem readsOnlyWritten_iff {s : State} : readsOnlyWritten s = true ↔ unwrittenReads s = [] := by
  simp [readsOnlyWritten, unwrittenReads]

/-- A host operation that reads no operand register records nothing. -/
theorem readFaultsAfter_of_none {s : State} (h : registersRead s = []) :
    readFaultsAfter s = s.readFaults := by
  simp [readFaultsAfter, unwrittenReads, h]

/-- Nothing is recorded exactly where only written registers are read. -/
theorem readFaultsAfter_eq_iff {s : State} :
    readFaultsAfter s = s.readFaults ↔ readsOnlyWritten s = true := by
  rw [readsOnlyWritten_iff]
  simp [readFaultsAfter]

/-- A host operation that reads no operand register meets no read fault. -/
theorem readsOnlySpecified_of_none {s : State} (h : registersRead s = []) :
    readsOnlySpecified s = true := by
  simp [readsOnlySpecified, h]

/-- Nor does one that reads only written registers. -/
theorem readsOnlySpecified_of_written {s : State} (h : readsOnlyWritten s = true) :
    readsOnlySpecified s = true := by
  rw [readsOnlySpecified_iff]
  intro r hr ho
  simp only [readsOnlyWritten, List.all_eq_true] at h
  have := h r hr
  simp [isWritten, ho] at this

/-- Nor does any where no register is unspecified. -/
theorem readsOnlySpecified_of_all {s : State} (h : ∀ r, originOf r s ≠ .unspecified) :
    readsOnlySpecified s = true :=
  readsOnlySpecified_iff.mpr fun r _ => h r

theorem registersRead_hread {s : State} {a : PortAddr} {r : Reg} {rest : List HostEvent}
    (h : s.host = .hread a :: rest) (ha : a.toNat = r.val) : registersRead s = [r] := by
  simp [registersRead, h, portSlot_of_reg ha]

theorem registersRead_command {s : State} {d : Word} {i : Instr} {rest : List HostEvent}
    (h : s.host = .hwrite 0x8#4 d :: rest) (hd : decodeData d = .legal i) :
    registersRead s = sourcesOf i := by
  have : portSlot 0x8#4 = .cmd := by decide
  simp [registersRead, h, this, hd]

/-- No part of a host operation after it has been taken touches the record. -/
theorem performEvent_readFaults (e : HostEvent) (s : State) :
    (performEvent e s).1.readFaults = s.readFaults := by
  cases e with
  | reset => rfl
  | hread a =>
    show (hostRead (portSlot a) s).readFaults = s.readFaults
    unfold hostRead
    split <;> rfl
  | hwrite a d =>
    show (hostWrite (portSlot a) d s).1.readFaults = s.readFaults
    unfold hostWrite issueCommand
    split <;> (try split) <;> rfl

/-- Taking a host operation records its reads of registers not written since reset. -/
theorem takeHostEvent_readFaults (s : State) :
    (takeHostEvent s).1.readFaults = readFaultsAfter s := by
  unfold takeHostEvent
  split
  · rename_i h
    exact (readFaultsAfter_of_none (by simp [registersRead, h])).symm
  · rw [performEvent_readFaults]; rfl

/-- A command does not touch the record. -/
theorem exec_readFaults {i : Instr} {s t : State} (h : exec i s = .next t) :
    t.readFaults = s.readFaults := by
  obtain ⟨v, e⟩ | ⟨v, -, e⟩ | ⟨v, -, e⟩ := exec_cases i s <;> rw [e] at h <;> cases h <;> simp

/-- A step records the reads of registers not written since reset that its host operation makes, and nothing else. -/
theorem step_readFaults {s t : State} (h : step s = .next t) : t.readFaults = readFaultsAfter s := by
  have hf := takeHostEvent_readFaults s
  obtain ⟨r, -, -, e⟩ | ⟨-, ⟨u, hu, e⟩ | ⟨u, i, hu, e⟩⟩ := step_cases s
  · rw [e] at h; cases h
  · rw [e] at h; cases h; rw [hu] at hf; exact hf
  · rw [e] at h; rw [hu] at hf; exact (exec_readFaults h).trans hf

end Sys2Proof.Machine
end

