-- ==== Sys2Proof/Machine/Assembler.lean ====
section
/-! DEFINITION. The assembler: which host operation a line of a program listing stands for (30_encoding.md R71 to R73, with
`.rd` and `.wr` of 95_test_vectors.md P5). No step reads it; it only names host operations (log entry 15). -/

namespace Sys2Proof.Machine

/-- A line of a listing (30_encoding.md R71, R72). -/
inductive AsmLine where
  /-- a command line -/
  | command (i : Instr)
  /-- `.set Xi, v` -/
  | set (r : Reg) (v : Word)
  /-- `.get Xi` -/
  | get (r : Reg)
  /-- `.status` -/
  | status
  /-- `.clr m` -/
  | clr (m : Word)
  /-- `.cmd w`, a raw command word -/
  | cmd (w : Word)
  /-- `.rd a`, a read of a port address -/
  | rd (a : PortAddr)
  /-- `.wr a, v`, a write of a port address -/
  | wr (a : PortAddr) (v : Word)
  deriving DecidableEq, Repr

/-- Why the assembler refuses a line. -/
inductive AsmError where
  /-- the first word is no mnemonic and no directive -/
  | unknownName
  /-- the operand count differs from the format's (30_encoding.md R71) -/
  | operandCount
  /-- an operand is not the register or number it has to be -/
  | badOperand
  deriving DecidableEq, Repr

/-- What the assembler makes of a line: a host operation's line, nothing (a blank line or a comment), or an error. -/
inductive Assembled where
  | line (l : AsmLine)
  | blank
  | error (e : AsmError)
  deriving DecidableEq, Repr

/-- The port address of an operand register (20_memory.md R42). -/
def regAddr (r : Reg) : PortAddr := BitVec.ofNat 4 r.val

/-- The host operation of a line (30_encoding.md R72). -/
def lineEvent : AsmLine → HostEvent
  | .command i => .hwrite 0x8#4 ((encode i).setWidth 64)
  | .set r v => .hwrite (regAddr r) v
  | .get r => .hread (regAddr r)
  | .status => .hread 0x9#4
  | .clr m => .hwrite 0x9#4 m
  | .cmd w => .hwrite 0x8#4 w
  | .rd a => .hread a
  | .wr a v => .hwrite a v

/-- A mnemonic as the opcode map spells it (30_encoding.md R63). -/
def mnemonicName : Mnemonic → String
  | .popcnt => "POPCNT"
  | .popcnt0 => "POPCNT0"
  | .pcntlo => "PCNTLO"
  | .pcntlo0 => "PCNTLO0"
  | .selw => "SELW"
  | .selw0 => "SELW0"
  | .seltab => "SELTAB"
  | .lblk => "LBLK"
  | .sblk => "SBLK"
  | .soff => "SOFF"
  | .phase => "PHASE"
  | .relget => "RELGET"
  | .relget0 => "RELGET0"
  | .relset => "RELSET"
  | .subblk => "SUBBLK"
  | .subblk0 => "SUBBLK0"
  | .absget => "ABSGET"
  | .absget0 => "ABSGET0"
  | .add => "ADD"
  | .sub => "SUB"

/-- The row a name stands for; `MOV` is `ABSGET` (30_encoding.md R73). -/
def mnemonicNamed (name : List Char) : Option Mnemonic :=
  if name = "MOV".toList then some .absget
  else allMnemonics.find? fun m => (mnemonicName m).toList == name

/-- A command from its row and its operands in the order `rd, rs1, rs2, rs3`; refused unless their number is the
format's (30_encoding.md R71). -/
def assembleCommand (m : Mnemonic) (operands : List Reg) : Assembled :=
  match formatOf m, operands with
  | .r1, [rd, rs1] => .line (.command (instrOf m rd rs1 0 0))
  | .r2, [rd, rs1, rs2] => .line (.command (instrOf m rd rs1 rs2 0))
  | .r3, [rd, rs1, rs2, rs3] => .line (.command (instrOf m rd rs1 rs2 rs3))
  | .r1, _ => .error .operandCount
  | .r2, _ => .error .operandCount
  | .r3, _ => .error .operandCount

/-- The digits of decimal numbers and of hexadecimal ones, each at the place of its value. The listings of
95_test_vectors.md spell hexadecimal with capitals; the small letters stand beside them (log entry 15). -/
def decimalDigits : List Char := "0123456789".toList
def hexCapitals : List Char := "0123456789ABCDEF".toList
def hexSmalls : List Char := "0123456789abcdef".toList

/-- The value of a character among some digits: its place in their list. -/
def placeIn (digits : List Char) (c : Char) : Option Nat := digits.findIdx? (· == c)

/-- The value of a decimal digit. -/
def decimalDigit (c : Char) : Option Nat := placeIn decimalDigits c

/-- The value of a hexadecimal digit. -/
def hexDigit (c : Char) : Option Nat :=
  match placeIn hexCapitals c with
  | some n => some n
  | none => placeIn hexSmalls c

/-- The number some digits spell in a base, after `acc`. -/
def digitsValue (digit : Char → Option Nat) (base : Nat) : Nat → List Char → Option Nat
  | acc, [] => some acc
  | acc, c :: cs =>
    match digit c with
    | none => none
    | some d => digitsValue digit base (acc * base + d) cs

/-- A number: decimal, or hexadecimal with `0x` (30_encoding.md R71). -/
def parseNumber (cs : List Char) : Option Nat :=
  match cs with
  | [] => none
  | '0' :: 'x' :: c :: rest => digitsValue hexDigit 16 0 (c :: rest)
  | c :: rest => digitsValue decimalDigit 10 0 (c :: rest)

/-- A number that fits a width. -/
def parseBits (w : Nat) (cs : List Char) : Option (BitVec w) :=
  match parseNumber cs with
  | some n => if n < 2 ^ w then some (BitVec.ofNat w n) else none
  | none => none

/-- A register, `X0` to `X7` (30_encoding.md R71). -/
def parseReg (cs : List Char) : Option Reg :=
  match cs with
  | ['X', c] =>
    match decimalDigit c with
    | some n => if h : n < 8 then some ⟨n, h⟩ else none
    | none => none
  | _ => none

/-- Every operand a register. -/
def parseRegs : List (List Char) → Option (List Reg)
  | [] => some []
  | cs :: rest =>
    match parseReg cs, parseRegs rest with
    | some r, some rs => some (r :: rs)
    | _, _ => none

/-- Cut at each separator. -/
def splitAtChar (sep : Char) : List Char → List (List Char)
  | [] => [[]]
  | c :: cs =>
    match splitAtChar sep cs with
    | [] => [[c]]
    | part :: parts => if c = sep then [] :: part :: parts else (c :: part) :: parts

/-- Without blanks at either end. -/
def trim (cs : List Char) : List Char :=
  ((cs.dropWhile (· == ' ')).reverse.dropWhile (· == ' ')).reverse

/-- The operands of a line, separated by commas. -/
def operandsOf (cs : List Char) : List (List Char) :=
  if trim cs = [] then [] else (splitAtChar ',' cs).map trim

/-- A line of one register operand. -/
def lineOfReg (f : Reg → AsmLine) (operands : List (List Char)) : Assembled :=
  match operands with
  | [r] =>
    match parseReg r with
    | some r => .line (f r)
    | none => .error .badOperand
  | _ => .error .operandCount

/-- A line of one number operand. -/
def lineOfNumber (w : Nat) (f : BitVec w → AsmLine) (operands : List (List Char)) : Assembled :=
  match operands with
  | [n] =>
    match parseBits w n with
    | some n => .line (f n)
    | none => .error .badOperand
  | _ => .error .operandCount

/-- A directive or command from its name and its operands (30_encoding.md R71, R72). -/
def assembleParts (name : List Char) (operands : List (List Char)) : Assembled :=
  if name = ".set".toList then
    match operands with
    | [r, v] =>
      match parseReg r, parseBits 64 v with
      | some r, some v => .line (.set r v)
      | _, _ => .error .badOperand
    | _ => .error .operandCount
  else if name = ".get".toList then lineOfReg .get operands
  else if name = ".status".toList then
    (if operands = [] then .line .status else .error .operandCount)
  else if name = ".clr".toList then lineOfNumber 64 .clr operands
  else if name = ".cmd".toList then lineOfNumber 64 .cmd operands
  else if name = ".rd".toList then lineOfNumber 4 .rd operands
  else if name = ".wr".toList then
    match operands with
    | [a, v] =>
      match parseBits 4 a, parseBits 64 v with
      | some a, some v => .line (.wr a v)
      | _, _ => .error .badOperand
    | _ => .error .operandCount
  else
    match mnemonicNamed name with
    | none => .error .unknownName
    | some m =>
      match parseRegs operands with
      | some rs => assembleCommand m rs
      | none => .error .badOperand

/-- One line of text; a comment starts with `;` and runs to the end of the line (30_encoding.md R71). -/
def assemble (text : String) : Assembled :=
  let code := trim (text.toList.takeWhile (· != ';'))
  if code = [] then .blank
  else assembleParts (code.takeWhile (· != ' ')) (operandsOf (code.dropWhile (· != ' ')))

end Sys2Proof.Machine
end

