-- ==== Sys2Proof/Tests/Slice0.lean ====
section
/-! SUPPORT. Tests. Every expected value is taken from the spec, mostly from the tables of 95_test_vectors.md. First what
WellFormed refuses, then decoding, then one or two values for each command, the host port, the select table, the
assembler, and last a witness for the hypotheses of each statement in Certificates/Slice0/Obligations.lean. -/

namespace Sys2Proof.Tests

open Machine

/-! ### Helpers -/

/-- A state in which `X0`, `X1`, `X2` hold `a`, `b`, `c` and the host has asked for nothing. -/
def unit (a b c : Word) : State :=
  { State.reset with
    regs := #v[a, b, c, 0, 0, 0, 0, 0]
    origin := #v[.written, .written, .written, .named, .named, .named, .named, .named] }

/-- `unit`, with one host operation to come. -/
def asked (e : HostEvent) (a b c : Word) : State := { (unit a b c) with host := [e] }

/-- A state with STATUS, LASTCMD and `X0` not 0, and one host operation to come. -/
def busy (e : HostEvent) : State :=
  { (unit 5 6 7) with host := [e], status := 0b0101#4, lastCmd := 0xDEADBEEF#32 }

/-- A test of the next state. -/
def next (o : Host.Outcome State Fault Refusal) (p : State → Bool) : Bool :=
  match o with
  | .next t => p t
  | .fault _ => false
  | .refused _ => false

/-- Executed, the command leaves `v` in `X7` and STATUS as given. -/
def gives (i : Instr) (a b c v : Word) (status : BitVec 4 := 0) : Bool :=
  next (exec i (unit a b c)) fun t => readReg 7 t == v && t.status == status

/-- Executed, the command leaves STATUS as given. -/
def flags (i : Instr) (a b c : Word) (status : BitVec 4) : Bool :=
  next (exec i (unit a b c)) fun t => t.status == status && isWritten 7 t && readReg 6 t == 0

/-- The word is illegal. -/
def isIllegal : Decoded → Bool
  | .legal _ => false
  | .illegal _ => true

/-! ### What WellFormed refuses (30_encoding.md R61, R65, R66) -/

/-- The fields of `PCNTLO X3, X2, X1` (30_encoding.md R74). -/
def goodFields : Command :=
  { reserved := 0, rs3 := 0, rs2 := 1, rs1 := 2, rd := 3, inv := 0, fn := 0x02 }

theorem test_wf_accepts : fieldsWellFormed goodFields = true := by decide

theorem test_wf_reserved_bits :
    reservedZero { goodFields with reserved := 0x800 } = false ∧
    fieldsWellFormed { goodFields with reserved := 0x800 } = false := by decide

theorem test_wf_unassigned_number :
    assigned { goodFields with fn := 0x05 } = false ∧
    fieldsWellFormed { goodFields with fn := 0x05 } = false := by decide

/-- `SELTAB` has no 0-form. -/
theorem test_wf_unassigned_zero_form :
    assigned { goodFields with fn := 0x04, inv := 1 } = false ∧
    fieldsWellFormed { goodFields with fn := 0x04, inv := 1 } = false := by decide

/-- `PCNTLO` is format R2: `rs3` must be 0. -/
theorem test_wf_unused_rs3 :
    unusedFieldsZero { goodFields with rs3 := 4 } = false ∧
    fieldsWellFormed { goodFields with rs3 := 4 } = false := by decide

/-- `POPCNT` is format R1: `rs2` must be 0. -/
theorem test_wf_unused_rs2 :
    unusedFieldsZero { goodFields with fn := 0x01 } = false ∧
    fieldsWellFormed { goodFields with fn := 0x01 } = false := by decide

/-- `SELW` is format R3: every register field is used. -/
theorem test_wf_r3_uses_all :
    fieldsWellFormed { goodFields with fn := 0x03, rs3 := 7, rs2 := 7 } = true := by decide

/-! ### Decoding: each command's word, written out bit by bit from 30_encoding.md R60 and R63 as
`reserved rs3 rs2 rs1 rd inv fn` -/

theorem test_decode_popcnt :
    decode 0b000000000000_000_000_110_001_0_0000001#32 = .legal (.popcnt 1 6) := by decide

theorem test_decode_popcnt0 :
    decode 0b000000000000_000_000_010_111_1_0000001#32 = .legal (.popcnt0 7 2) := by decide

theorem test_decode_pcntlo :
    decode 0b000000000000_000_110_101_010_0_0000010#32 = .legal (.pcntlo 2 5 6) := by decide

theorem test_decode_pcntlo0 :
    decode 0b000000000000_000_001_011_100_1_0000010#32 = .legal (.pcntlo0 4 3 1) := by decide

theorem test_decode_selw :
    decode 0b000000000000_101_010_001_110_0_0000011#32 = .legal (.selw 6 1 2 5) := by decide

theorem test_decode_selw0 :
    decode 0b000000000000_010_011_111_101_1_0000011#32 = .legal (.selw0 5 7 3 2) := by decide

theorem test_decode_seltab :
    decode 0b000000000000_000_111_100_011_0_0000100#32 = .legal (.seltab 3 4 7) := by decide

theorem test_decode_lblk :
    decode 0b000000000000_000_000_110_001_0_0010000#32 = .legal (.lblk 1 6) := by decide

theorem test_decode_sblk :
    decode 0b000000000000_000_000_010_111_0_0010001#32 = .legal (.sblk 7 2) := by decide

theorem test_decode_soff :
    decode 0b000000000000_000_000_101_010_0_0010010#32 = .legal (.soff 2 5) := by decide

theorem test_decode_phase :
    decode 0b000000000000_000_000_011_100_0_0010011#32 = .legal (.phase 4 3) := by decide

theorem test_decode_relget :
    decode 0b000000000000_000_010_001_110_0_0010100#32 = .legal (.relget 6 1 2) := by decide

theorem test_decode_relget0 :
    decode 0b000000000000_000_011_111_101_1_0010100#32 = .legal (.relget0 5 7 3) := by decide

theorem test_decode_relset :
    decode 0b000000000000_001_111_100_011_0_0010101#32 = .legal (.relset 3 4 7 1) := by decide

theorem test_decode_subblk :
    decode 0b000000000000_000_011_110_001_0_0010110#32 = .legal (.subblk 1 6 3) := by decide

theorem test_decode_subblk0 :
    decode 0b000000000000_000_100_010_111_1_0010110#32 = .legal (.subblk0 7 2 4) := by decide

theorem test_decode_absget :
    decode 0b000000000000_000_000_101_010_0_0010111#32 = .legal (.absget 2 5) := by decide

theorem test_decode_absget0 :
    decode 0b000000000000_000_001_011_100_1_0010111#32 = .legal (.absget0 4 3 1) := by decide

theorem test_decode_add :
    decode 0b000000000000_000_010_001_110_0_0100000#32 = .legal (.add 6 1 2) := by decide

theorem test_decode_sub :
    decode 0b000000000000_000_011_111_101_0_0100001#32 = .legal (.sub 5 7 3) := by decide

/-- The illegal words of 95_test_vectors.md 3.5. -/
theorem test_decode_illegal :
    [0x00000000#32, 0x00000080#32, 0x00000005#32, 0x0000007F#32, 0x00000084#32, 0x00000090#32,
     0x000000A0#32, 0x00004101#32, 0x00004017#32, 0x00020102#32, 0x0003FF16#32, 0x00100101#32,
     0x80000101#32].all (fun w => isIllegal (decode w)) = true := by decide

/-- Words of 95_test_vectors.md 3.5 with every field at 7, and at 0. -/
theorem test_decode_field_ends :
    decode 0x000FFF83#32 = .legal (.selw0 7 7 7 7) ∧ decode 0x00000097#32 = .legal (.absget0 0 0 0) ∧
    decode 0x00000081#32 = .legal (.popcnt0 0 0) := by decide

/-- The same number is a legal command as 32 bits and illegal as CMD data with bit 32 set (95_test_vectors.md 3.5). -/
theorem test_decode_data_high :
    decodeData 0x0000000000000101#64 = .legal (.popcnt 1 0) ∧
    decodeData 0x0000000100000101#64 = .illegal .dataHigh := by decide

theorem test_decode_table_word :
    decodeTableWord 32 0x00068803 = some (.selw 0 1 2 3) ∧ decodeTableWord 32 0 = none := by decide

/-- The machine runs the placed word as its next instruction: `POPCNT X1, X0` (30_encoding.md R74). -/
theorem test_fetch_word :
    next (step ((unit 0x8000000000000003 0 0).withFetchWord 32 0x00000101)) (fun t =>
      readReg 1 t == 3 && t.lastCmd == 0x00000101#32 && t.host == []) = true := by decide

/-! ### Commands, with the vectors of 95_test_vectors.md 3.1 to 3.4 -/

/-- All ones; both ends of the word. -/
theorem test_popcnt :
    gives (.popcnt 7 0) 0xFFFFFFFFFFFFFFFF 0 0 64 = true ∧
    gives (.popcnt 7 0) 0x8000000000000003 0 0 3 = true := by decide

theorem test_popcnt0 :
    gives (.popcnt0 7 0) 0 0 0 64 = true ∧
    gives (.popcnt0 7 0) 0x8000000000000003 0 0 0x3D = true := by decide

/-- Bit 63 is never counted; offset 0 counts nothing. -/
theorem test_pcntlo :
    gives (.pcntlo 7 0 1) 0x8000000000000003 0x3F 0 2 = true ∧
    gives (.pcntlo 7 0 1) 0x8000000000000003 0 0 0 = true := by decide

/-- Only `b[5:0]` is used. -/
theorem test_pcntlo_offset :
    gives (.pcntlo 7 0 1) 0x8000000000000003 0x41 0 1 = true ∧
    gives (.pcntlo 7 0 1) 0xFFFFFFFFFFFFFFFF 0xFFFFFFFFFFFFFFC0 0 0 = true := by decide

theorem test_pcntlo0 :
    gives (.pcntlo0 7 0 1) 0x8000000000000003 5 0 3 = true ∧
    gives (.pcntlo0 7 0 1) 0x8000000000000003 0x3F 0 0x3D = true ∧
    gives (.pcntlo0 7 0 1) 0 0x40 0 0 = true := by decide

/-- The top bit; a base; a base that wraps; the table of 95_test_vectors.md 2.1. -/
theorem test_selw :
    gives (.selw 7 0 1 2) 0x400 0 0 10 = true ∧
    gives (.selw 7 0 1 2) 0x8000000000000003 2 0x40 0x7F = true ∧
    gives (.selw 7 0 1 2) 0x80FFFFFFFFFFFFFF 0x38 0 0x3F = true ∧
    gives (.selw 7 0 1 2) 2 0 0xFFFFFFFFFFFFFFFF 0 = true := by decide

/-- The precondition compares all 64 bits of `b`; the destination is written although SELR is set. -/
theorem test_selw_out_of_range :
    flags (.selw 7 0 1 2) 0 0 0 0b0010 = true ∧
    flags (.selw 7 0 1 2) 0x8000000000000003 3 0x40 0b0010 = true ∧
    flags (.selw 7 0 1 2) 1 0x100000000 0x80 0b0010 = true := by decide

theorem test_selw0 :
    gives (.selw0 7 0 1 2) 0x8000000000000003 0 0x40 0x42 = true ∧
    gives (.selw0 7 0 1 2) 0x8000000000000003 0x3C 0 0x3E = true ∧
    gives (.selw0 7 0 1 2) 0x7FFFFFFFFFFFFFFF 0 0 0x3F = true := by decide

theorem test_selw0_out_of_range :
    flags (.selw0 7 0 1 2) 0xFFFFFFFFFFFFFFFF 0 0 0b0010 = true ∧
    flags (.selw0 7 0 1 2) 0x8000000000000003 0x3D 0 0b0010 = true := by decide

/-- The fallback 7; only `b[2:0]` and `a[7:0]` are used. -/
theorem test_seltab :
    gives (.seltab 7 0 1) 0x55 3 0 6 = true ∧
    gives (.seltab 7 0 1) 3 2 0 7 = true ∧
    gives (.seltab 7 0 1) 0xFF 8 0 0 = true ∧
    gives (.seltab 7 0 1) 0x1FF 0xF 0 7 = true := by decide

theorem test_lblk :
    gives (.lblk 7 0) 0x1770 0 0 11 = true ∧
    gives (.lblk 7 0) 0xFFFFFFFFFFFFFFFF 0 0 0x7FFFFFFFFFFFFF = true := by decide

theorem test_sblk :
    gives (.sblk 7 0) 0x1770 0 0 93 = true ∧
    gives (.sblk 7 0) 0xFFFFFFFFFFFFFFFF 0 0 0x03FFFFFFFFFFFFFF = true := by decide

theorem test_soff :
    gives (.soff 7 0) 0x1770 0 0 0x30 = true ∧
    gives (.soff 7 0) 0xFFFFFFFFFFFFFFFF 0 0 0x3F = true := by decide

theorem test_phase :
    gives (.phase 7 0) 0x1770 0 0 5 = true ∧
    gives (.phase 7 0) 0x200 0 0 0 = true := by decide

/-- Each field of the rel word of scenario 1. -/
theorem test_relget :
    gives (.relget 7 0 1) 0x00401C0C05040303 0 0 0 = true ∧
    gives (.relget 7 0 1) 0x00401C0C05040303 1 0 3 = true ∧
    gives (.relget 7 0 1) 0x00401C0C05040303 2 0 6 = true ∧
    gives (.relget 7 0 1) 0x00401C0C05040303 3 0 8 = true ∧
    gives (.relget 7 0 1) 0x00401C0C05040303 4 0 10 = true ∧
    gives (.relget 7 0 1) 0x00401C0C05040303 5 0 12 = true ∧
    gives (.relget 7 0 1) 0x00401C0C05040303 6 0 14 = true ∧
    gives (.relget 7 0 1) 0x00401C0C05040303 7 0 16 = true := by decide

/-- Widths 7 and 9; `k` is `b[2:0]`. -/
theorem test_relget_ends :
    gives (.relget 7 0 1) 0xFFFFFFFFFFFFFFFF 1 0 0x7F = true ∧
    gives (.relget 7 0 1) 0xFFFFFFFFFFFFFFFF 4 0 0x1FF = true ∧
    gives (.relget 7 0 1) 0x00401C0C05040303 9 0 3 = true := by decide

/-- Field 0; a count; a field above `64*k` wraps. -/
theorem test_relget0 :
    gives (.relget0 7 0 1) 0x00401C0C05040303 0 0 0 = true ∧
    gives (.relget0 7 0 1) 0x00401C0C05040303 2 0 0x7A = true ∧
    gives (.relget0 7 0 1) 0xFFFFFFFFFFFFFFFF 1 0 0xFFFFFFFFFFFFFFC1 = true := by decide

/-- A middle field; bits 63:59 are kept; field 0 changes nothing. -/
theorem test_relset :
    gives (.relset 7 0 1 2) 0xFFFFFFFFFFFFFFFF 3 0 0xFFFFFFFFFF807FFF = true ∧
    gives (.relset 7 0 1 2) 0xF800000000000000 5 12 0xF800000C00000000 = true ∧
    gives (.relset 7 0 1 2) 0x00401C0C05040303 8 5 0x00401C0C05040303 = true := by decide

/-- The widest value that fits, and the next; all ones. -/
theorem test_relset_overflow :
    gives (.relset 7 0 1 2) 0 1 0x7F 0x7F = true ∧
    gives (.relset 7 0 1 2) 0 1 0x80 0 0b0100 = true ∧
    gives (.relset 7 0 1 2) 0x00401C0C05040303 4 0xFFFFFFFFFFFFFFFF 0x00401C0CFF840303 0b0100 = true := by decide

/-- Each side of a threshold; ties go to the largest index. -/
theorem test_subblk :
    gives (.subblk 7 0 1) 0x00401C0C05040303 2 0 0 = true ∧
    gives (.subblk 7 0 1) 0x00401C0C05040303 3 0 1 = true ∧
    gives (.subblk 7 0 1) 0 0 0 7 = true ∧
    gives (.subblk 7 0 1) 0x0703014080604040 0x1BF 0 6 = true := by decide

/-- `T1 = 5`, all others 0, `q = 1`: the tree reaches 7 (95_test_vectors.md 4). -/
theorem test_subblk_not_monotone :
    gives (.subblk 7 0 1) 5 1 0 7 = true := by decide

theorem test_subblk0 :
    gives (.subblk0 7 0 1) 0x00401C0C05040303 0x3C 0 0 = true ∧
    gives (.subblk0 7 0 1) 0x00401C0C05040303 0x3D 0 1 = true ∧
    gives (.subblk0 7 0 1) 0x0703014080604040 0 0 7 = true := by decide

theorem test_absget :
    gives (.absget 7 0) 0xFFFFFFFFFFFFFFFF 0 0 0xFFFFFFFFFFFFFFFF = true := by decide

/-- `b << 9` drops the high bits; the difference wraps. -/
theorem test_absget0 :
    gives (.absget0 7 0 1) 0x12 1 0 0x1EE = true ∧
    gives (.absget0 7 0 1) 1 0 0 0xFFFFFFFFFFFFFFFF = true ∧
    gives (.absget0 7 0 1) 0 0x0080000000000000 0 0 = true := by decide

theorem test_add :
    gives (.add 7 0 1) 0xFFFFFFFFFFFFFFFF 1 0 0 = true ∧
    gives (.add 7 0 1) 0xFFFFFFFFFFFFFFFF 0xFFFFFFFFFFFFFFFF 0 0xFFFFFFFFFFFFFFFE = true := by decide

theorem test_sub :
    gives (.sub 7 0 1) 0 1 0 0xFFFFFFFFFFFFFFFF = true ∧
    gives (.sub 7 0 1) 0x41 4 0 0x3D = true := by decide

/-- A source that is also the destination is read before it is written (00_scope.md R13). -/
theorem test_destination_is_source :
    next (exec (.sub 1 0 1) (unit 9 4 0)) (fun t => readReg 1 t == 5 && readReg 0 t == 9) = true ∧
    next (exec (.relset 2 0 1 2) (unit 0 2 0xFF)) (fun t => readReg 2 t == 0x7F80) = true := by decide

/-! ### The host port (20_memory.md R43 to R47; 60_exceptions.md R141, R144) -/

theorem test_host_write_register :
    next (step (busy (.hwrite 0x7 0x123456789ABCDEF0))) (fun t =>
      readReg 7 t == 0x123456789ABCDEF0 && isWritten 7 t && readReg 0 t == 5 && t.status == 0b0101#4 &&
      t.lastCmd == 0xDEADBEEF#32) = true := by decide

/-- ILL is set beside the bits that are set already, LASTCMD takes the data's low half, no register changes. -/
theorem test_illegal_command :
    next (step (busy (.hwrite 0x8 0x0000000100000101))) (fun t =>
      t.status == 0b0101#4 && t.lastCmd == 0x00000101#32 && t.regs == (unit 5 6 7).regs) = true ∧
    next (step (asked (.hwrite 0x8 0x00000080) 5 6 7)) (fun t =>
      t.status == 0b0001#4 && t.lastCmd == 0x00000080#32 && t.regs == (unit 5 6 7).regs) = true := by
  decide

/-- A legal command does not clear a condition (10_state.md R27). -/
theorem test_status_is_sticky :
    next (step (busy (.hwrite 0x8 0x00000101))) (fun t =>
      t.status == 0b0101#4 && readReg 1 t == 2) = true := by decide

/-- Writing ones clears; the bits above 3 do nothing (10_state.md R28). -/
theorem test_status_write :
    next (step (busy (.hwrite 0x9 0xFFFFFFFFFFFFFFF4))) (fun t => t.status == 0b0001#4) = true ∧
    next (step (busy (.hwrite 0x9 0x0))) (fun t => t.status == 0b0101#4) = true := by decide

theorem test_host_reads :
    next (step (busy (.hread 0x0))) (fun t => t.replies == [5] && t.status == 0b0101#4) = true ∧
    next (step (busy (.hread 0x8))) (fun t => t.replies == [0xDEADBEEF]) = true ∧
    next (step (busy (.hread 0x9))) (fun t => t.replies == [5] && t.status == 0b0101#4) = true := by
  decide

/-- `hread(0xA)` and `hwrite(0xC, ...)` of 95_test_vectors.md 3.5. -/
theorem test_reserved_addresses :
    next (step (asked (.hread 0xA) 5 6 7)) (fun t =>
      t.replies == [0] && t.status == 0b1000#4 && t.regs == (unit 5 6 7).regs) = true ∧
    next (step (asked (.hwrite 0xC 1) 5 6 7)) (fun t =>
      t.replies == [] && t.status == 0b1000#4 && t.regs == (unit 5 6 7).regs) = true := by decide

/-- Reset does not clear `X0` but leaves it unspecified (10_state.md R33). -/
theorem test_reset_event :
    next (step (busy .reset)) (fun t =>
      t.status == 0#4 && t.lastCmd == 0#32 && originOf 0 t == .unspecified && readReg 0 t == 5 &&
      t.host == []) = true := by decide

/-- A unit that a reset has left with `X0` unspecified, and one host operation to come. -/
def afterReset (e : HostEvent) : State := { resetUnit (unit 5 6 7) with host := [e] }

/-- A host read or a command that reads a register a reset has left unspecified is a fault, on a first source (`SUB X1,
X0, X1`) and on a third alone (10_state.md R34; 93_implementation_defined.md U3, U4). -/
theorem test_read_after_reset :
    step (afterReset (.hread 0x0)) = .fault (.unspecifiedRead 0) ∧
    step (afterReset (.hwrite 0x8 0x00004121)) = .fault (.unspecifiedRead 0) ∧
    step { (asked (.hwrite 0x8 0x00028703) 5 6 7) with
      origin := #v[.written, .written, .unspecified, .named, .named, .named, .named, .named] } =
        .fault (.unspecifiedRead 2) := ⟨rfl, rfl, rfl⟩

/-- A register written after the reset is read again, and an unspecified destination is no read. -/
theorem test_write_after_reset :
    next (core.run 2 { (afterReset (.hwrite 0x0 9)) with host := [.hwrite 0x0 9, .hwrite 0x8 0x00000101] })
      (fun t => readReg 1 t == 2 && isWritten 1 t && t.readFaults == []) = true := by decide

/-- A read of an unspecified register, which `step` never makes, is a draw of its own: the next is another one. -/
theorem test_unspecified_draw :
    readSource 0 0 (afterReset (.hread 0x0)) = Config.unspecifiedRead 0 0 0 ∧
    readSource 1 0 (nextDraw (afterReset (.hread 0x0))) = Config.unspecifiedRead 1 1 0 := ⟨rfl, rfl⟩

/-- The reads of registers not written since `State.reset` go on record, by a command with the sources 3 and 4 and by a
host read, and nothing does where only written registers are used (10_state.md R34; 30_encoding.md R70). -/
theorem test_read_faults :
    next (step (asked (.hwrite 0x8 0x00011D20) 5 6 7)) (fun t => t.readFaults == [⟨1, 3⟩, ⟨1, 4⟩]) = true ∧
    next (step (asked (.hread 0x7) 5 6 7)) (fun t => t.readFaults == [⟨1, 7⟩]) = true ∧
    next (step (asked (.hwrite 0x8 0x00000101) 5 6 7)) (fun t => t.readFaults == []) = true := by
  decide

theorem test_idle : next (step (unit 5 6 7)) (fun t => t == unit 5 6 7) = true := by decide

/-! ### The select table, as 42_select_in_word.md R97 lists it -/

/-- The rows from byte `b` on are as listed, the entries of a row as hexadecimal digits, `i = 0` first. -/
def rowsFrom : Nat → List Nat → Bool
  | _, [] => true
  | b, row :: rows =>
    (List.finRange 8).all (fun i =>
      (selectTable i (BitVec.ofNat 8 b)).val == row / 16 ^ (7 - i.val) % 16) && rowsFrom (b + 1) rows

theorem test_table_0 :
    rowsFrom 0x00
      [0x77777777, 0x07777777, 0x17777777, 0x01777777, 0x27777777, 0x02777777, 0x12777777, 0x01277777,
       0x37777777, 0x03777777, 0x13777777, 0x01377777, 0x23777777, 0x02377777, 0x12377777, 0x01237777,
       0x47777777, 0x04777777, 0x14777777, 0x01477777, 0x24777777, 0x02477777, 0x12477777, 0x01247777,
       0x34777777, 0x03477777, 0x13477777, 0x01347777, 0x23477777, 0x02347777, 0x12347777, 0x01234777] = true := by
  decide +kernel

theorem test_table_1 :
    rowsFrom 0x20
      [0x57777777, 0x05777777, 0x15777777, 0x01577777, 0x25777777, 0x02577777, 0x12577777, 0x01257777,
       0x35777777, 0x03577777, 0x13577777, 0x01357777, 0x23577777, 0x02357777, 0x12357777, 0x01235777,
       0x45777777, 0x04577777, 0x14577777, 0x01457777, 0x24577777, 0x02457777, 0x12457777, 0x01245777,
       0x34577777, 0x03457777, 0x13457777, 0x01345777, 0x23457777, 0x02345777, 0x12345777, 0x01234577] = true := by
  decide +kernel

theorem test_table_2 :
    rowsFrom 0x40
      [0x67777777, 0x06777777, 0x16777777, 0x01677777, 0x26777777, 0x02677777, 0x12677777, 0x01267777,
       0x36777777, 0x03677777, 0x13677777, 0x01367777, 0x23677777, 0x02367777, 0x12367777, 0x01236777,
       0x46777777, 0x04677777, 0x14677777, 0x01467777, 0x24677777, 0x02467777, 0x12467777, 0x01246777,
       0x34677777, 0x03467777, 0x13467777, 0x01346777, 0x23467777, 0x02346777, 0x12346777, 0x01234677] = true := by
  decide +kernel

theorem test_table_3 :
    rowsFrom 0x60
      [0x56777777, 0x05677777, 0x15677777, 0x01567777, 0x25677777, 0x02567777, 0x12567777, 0x01256777,
       0x35677777, 0x03567777, 0x13567777, 0x01356777, 0x23567777, 0x02356777, 0x12356777, 0x01235677,
       0x45677777, 0x04567777, 0x14567777, 0x01456777, 0x24567777, 0x02456777, 0x12456777, 0x01245677,
       0x34567777, 0x03456777, 0x13456777, 0x01345677, 0x23456777, 0x02345677, 0x12345677, 0x01234567] = true := by
  decide +kernel

theorem test_table_4 :
    rowsFrom 0x80
      [0x77777777, 0x07777777, 0x17777777, 0x01777777, 0x27777777, 0x02777777, 0x12777777, 0x01277777,
       0x37777777, 0x03777777, 0x13777777, 0x01377777, 0x23777777, 0x02377777, 0x12377777, 0x01237777,
       0x47777777, 0x04777777, 0x14777777, 0x01477777, 0x24777777, 0x02477777, 0x12477777, 0x01247777,
       0x34777777, 0x03477777, 0x13477777, 0x01347777, 0x23477777, 0x02347777, 0x12347777, 0x01234777] = true := by
  decide +kernel

theorem test_table_5 :
    rowsFrom 0xA0
      [0x57777777, 0x05777777, 0x15777777, 0x01577777, 0x25777777, 0x02577777, 0x12577777, 0x01257777,
       0x35777777, 0x03577777, 0x13577777, 0x01357777, 0x23577777, 0x02357777, 0x12357777, 0x01235777,
       0x45777777, 0x04577777, 0x14577777, 0x01457777, 0x24577777, 0x02457777, 0x12457777, 0x01245777,
       0x34577777, 0x03457777, 0x13457777, 0x01345777, 0x23457777, 0x02345777, 0x12345777, 0x01234577] = true := by
  decide +kernel

theorem test_table_6 :
    rowsFrom 0xC0
      [0x67777777, 0x06777777, 0x16777777, 0x01677777, 0x26777777, 0x02677777, 0x12677777, 0x01267777,
       0x36777777, 0x03677777, 0x13677777, 0x01367777, 0x23677777, 0x02367777, 0x12367777, 0x01236777,
       0x46777777, 0x04677777, 0x14677777, 0x01467777, 0x24677777, 0x02467777, 0x12467777, 0x01246777,
       0x34677777, 0x03467777, 0x13467777, 0x01346777, 0x23467777, 0x02346777, 0x12346777, 0x01234677] = true := by
  decide +kernel

theorem test_table_7 :
    rowsFrom 0xE0
      [0x56777777, 0x05677777, 0x15677777, 0x01567777, 0x25677777, 0x02567777, 0x12567777, 0x01256777,
       0x35677777, 0x03567777, 0x13567777, 0x01356777, 0x23567777, 0x02356777, 0x12356777, 0x01235677,
       0x45677777, 0x04567777, 0x14567777, 0x01456777, 0x24567777, 0x02456777, 0x12456777, 0x01245677,
       0x34567777, 0x03456777, 0x13456777, 0x01345677, 0x23456777, 0x02345677, 0x12345677, 0x01234567] = true := by
  decide +kernel

/-! ### The assembler (30_encoding.md R71 to R73) -/

theorem test_assemble_command :
    assemble "SELW X0, X1, X2, X3" = .line (.command (.selw 0 1 2 3)) ∧
    lineEvent (.command (.selw 0 1 2 3)) = .hwrite 0x8 0x00068803 := by decide

theorem test_assemble_mov : assemble "MOV X3, X5" = .line (.command (.absget 3 5)) := by decide

/-- Lines of 95_test_vectors.md programs P1 and P5. -/
theorem test_assemble_directives :
    assemble ".set X0, 65 ; i" = .line (.set 0 65) ∧ assemble ".clr 0xfF" = .line (.clr 255) ∧
    assemble ".set X5, 0x8000000000000003 ; bits[1]" = .line (.set 5 0x8000000000000003) ∧ assemble ".get X3 ; rank1" = .line (.get 3) ∧
    assemble ".status" = .line .status ∧ assemble "; a comment" = .blank := by decide

theorem test_assemble_refuses :
    assemble "POPCNT X1" = .error .operandCount ∧ assemble "POPCNT X1, X8" = .error .badOperand ∧
    assemble "NOP" = .error .unknownName := by decide

/-! ### Witnesses: concrete states and operands that meet the hypotheses of each statement, clause by clause -/

/-- A CMD write of `POPCNT X1, X0`. -/
def popcntWrite : HostEvent := .hwrite 0x8 0x00000101

theorem witness_EncodeInvertsDecode :
    decode 0x00000101#32 = .legal (.popcnt 1 0) ∧ decode 0x000FFF83#32 = .legal (.selw0 7 7 7 7) := by
  decide

/-- The first clause, the second clause (the row of `SELW0` and its word with every field 7), and the third. -/
theorem witness_LegalWordsAreTheTableRows :
    decode 0x000FFF83#32 = .legal (.selw0 7 7 7 7) ∧
    (Mnemonic.selw0, 0x00000083#32, 0xFFF000FF#32) ∈ tableRows ∧
    0x000FFF83#32 &&& 0xFFF000FF#32 = 0x00000083#32 := by decide

/-- Bit 20 alone. -/
theorem witness_ReservedEncodings_reserved :
    (0x00100101#32).extractLsb' 20 12 ≠ 0#12 := by decide

/-- The ends of each range of unassigned numbers. -/
theorem witness_ReservedEncodings_number :
    [0x00#32, 0x05#32, 0x0F#32, 0x18#32, 0x1F#32, 0x22#32, 0x7F#32].all (fun w =>
      let fn := (w.extractLsb' 0 7).toNat
      decide (fn = 0 ∨ (0x05 ≤ fn ∧ fn ≤ 0x0F) ∨ (0x18 ≤ fn ∧ fn ≤ 0x1F) ∨
        (0x22 ≤ fn ∧ fn ≤ 0x7F))) = true := by decide

theorem witness_ReservedEncodings_zero_form :
    [0x84#32, 0x90#32, 0x91#32, 0x92#32, 0x93#32, 0x95#32, 0xA0#32, 0xA1#32].all (fun w =>
      w.getLsbD 7 && decide ((w.extractLsb' 0 7).toNat ∈
        [0x04, 0x10, 0x11, 0x12, 0x13, 0x15, 0x20, 0x21])) = true := by decide

theorem witness_ReservedEncodings_rs3 :
    (0x00020102#32).extractLsb' 17 3 ≠ 0#3 ∧
    ((0x00020102#32).extractLsb' 0 7).toNat ∉ [0x03, 0x15] := by decide

/-- `POPCNT`, and `ABSGET`, whose 0-form uses the field. -/
theorem witness_ReservedEncodings_rs2 :
    (0x00004101#32).extractLsb' 14 3 ≠ 0#3 ∧
    ((0x00004101#32).extractLsb' 0 7).toNat ∈ [0x01, 0x10, 0x11, 0x12, 0x13] ∧
    (0x00004017#32).extractLsb' 14 3 ≠ 0#3 ∧
    ((0x00004017#32).extractLsb' 0 7).toNat = 0x17 ∧ (0x00004017#32).getLsbD 7 = false := by decide

/-- A source that is written, and one that a reset has left unspecified. -/
theorem witness_StepRunsTheDecodedCommand :
    (busy popcntWrite).host = [.hwrite 0x8#4 0x00000101#64] ∧
    (0x00000101#64).extractLsb' 32 32 = 0#32 ∧
    decode ((0x00000101#64).extractLsb' 0 32) = .legal (.popcnt 1 0) ∧
    (∀ r ∈ sourcesOf (.popcnt 1 0), originOf r (busy popcntWrite) ≠ .unspecified) ∧
    (afterReset popcntWrite).host = [.hwrite 0x8#4 0x00000101#64] ∧
    0 ∈ sourcesOf (.popcnt 1 0) ∧ originOf 0 (afterReset popcntWrite) = .unspecified := by decide

/-- Only bit 32 of the data set above a legal word. -/
theorem witness_IllegalCommandSetsOnlyIll_data :
    (busy (.hwrite 0x8 0x0000000100000101)).host = [.hwrite 0x8#4 0x0000000100000101#64] ∧
    (0x0000000100000101#64).extractLsb' 32 32 ≠ 0#32 := by decide

/-- The word 0. -/
theorem witness_IllegalCommandSetsOnlyIll_word :
    (busy (.hwrite 0x8 0)).host = [.hwrite 0x8#4 0#64] ∧
    ∀ i, decode ((0#64).extractLsb' 0 32) ≠ .legal i :=
  ⟨by decide, fun i h => by
    have h0 : decode ((0#64).extractLsb' 0 32) = .illegal .unassigned := by decide
    rw [h0] at h
    cases h⟩

/-- The first and the last operand register. -/
theorem witness_HostWriteSetsTheRegister :
    (busy (.hwrite 0x0 9)).host = [.hwrite 0x0#4 9#64] ∧ (0x0#4).toNat = (0 : Reg).val ∧
    (busy (.hwrite 0x7 9)).host = [.hwrite 0x7#4 9#64] ∧ (0x7#4).toNat = (7 : Reg).val := by decide

/-- Each clause, the register clause at both ends. -/
theorem witness_HostReadReturnsWithoutSideEffect :
    (busy (.hread 0x0)).host = [.hread 0x0#4] ∧ (0x0#4).toNat = (0 : Reg).val ∧
    originOf 0 (busy (.hread 0x0)) ≠ .unspecified ∧
    (busy (.hread 0x7)).host = [.hread 0x7#4] ∧ (0x7#4).toNat = (7 : Reg).val ∧
    originOf 7 (busy (.hread 0x7)) ≠ .unspecified ∧
    (afterReset (.hread 0x0)).host = [.hread 0x0#4] ∧
    originOf 0 (afterReset (.hread 0x0)) = .unspecified ∧
    (afterReset (.hread 0x7)).host = [.hread 0x7#4] ∧
    originOf 7 (afterReset (.hread 0x7)) = .unspecified ∧
    (busy (.hread 0x8)).host = [.hread 0x8#4] ∧ (0x8#4).toNat = 8 ∧
    (busy (.hread 0x9)).host = [.hread 0x9#4] ∧ (0x9#4).toNat = 9 := by decide

/-- Reads and writes of the first and the last reserved address. -/
theorem witness_ReservedAddressFlagsHadr :
    10 ≤ (0xA#4).toNat ∧ 10 ≤ (0xF#4).toNat ∧
    (busy (.hread 0xA)).host = [.hread 0xA#4] ∧ (busy (.hread 0xF)).host = [.hread 0xF#4] ∧
    (busy (.hwrite 0xA 1)).host = [.hwrite 0xA#4 1#64] ∧
    (busy (.hwrite 0xF 1)).host = [.hwrite 0xF#4 1#64] := by decide

theorem witness_StatusWriteClearsOnes :
    (busy (.hwrite 0x9 0x4)).host = [.hwrite 0x9#4 0x4#64] := by decide

theorem witness_IdleUnitHoldsItsState : (unit 5 6 7).host = [] := by decide

theorem witness_ResetEventClearsControlState : (busy .reset).host = [.reset] := by decide

/-- A bit that stays (an idle step), one that a STATUS write clears, and one that a reset clears. -/
theorem witness_StatusBitsAreSticky :
    (∃ t, step { (busy .reset) with host := [] } = .next t) ∧
    (∃ t, step (busy (.hwrite 0x9 0x4)) = .next t ∧ ¬ statusHas .fovf t) ∧
    (∃ t, step (busy .reset) = .next t ∧ ¬ statusHas .fovf t) ∧
    ∀ e, statusHas .fovf (busy e) :=
  ⟨⟨_, rfl⟩, ⟨_, rfl, by unfold statusHas; decide⟩,
    ⟨_, rfl, by unfold statusHas; decide⟩, fun _ => by
    show (0b0101#4).getLsbD 2 = true
    decide⟩

theorem witness_ConditionsStayAlongRuns :
    (∃ t, core.run 1 (busy popcntWrite) = .next t) ∧
    (∀ e ∈ (busy popcntWrite).host.take 1, e ≠ .reset ∧ ∀ d, e ≠ .hwrite 0x9#4 d) ∧
    statusHas .fovf (busy popcntWrite) :=
  ⟨⟨_, rfl⟩, by
    intro e he
    have : e = popcntWrite := by simpa [busy] using he
    subst this
    exact ⟨by decide, fun d h => by injection h with h1 h2; exact absurd h1 (by decide)⟩, rfl⟩

/-- Each condition, newly set: a zero word, a select of nothing, a value of 8 bits for field 1, a reserved address. -/
theorem witness_NewConditionsHaveTheirCause :
    (¬ statusHas .ill (asked (.hwrite 0x8 0) 0 1 0x80) ∧
      ∃ t, step (asked (.hwrite 0x8 0) 0 1 0x80) = .next t ∧ statusHas .ill t) ∧
    (¬ statusHas .selr (asked (.hwrite 0x8 0x00028703) 0 1 0x80) ∧
      ∃ t, step (asked (.hwrite 0x8 0x00028703) 0 1 0x80) = .next t ∧ statusHas .selr t) ∧
    (¬ statusHas .fovf (asked (.hwrite 0x8 0x00044715) 0 1 0x80) ∧
      ∃ t, step (asked (.hwrite 0x8 0x00044715) 0 1 0x80) = .next t ∧ statusHas .fovf t) ∧
    (¬ statusHas .hadr (asked (.hread 0xA) 0 1 0x80) ∧
      ∃ t, step (asked (.hread 0xA) 0 1 0x80) = .next t ∧ statusHas .hadr t) := by
  unfold statusHas
  exact ⟨⟨by decide, _, rfl, by decide⟩, ⟨by decide, _, rfl, by decide⟩, ⟨by decide, _, rfl, by decide⟩,
    ⟨by decide, _, rfl, by decide⟩⟩

/-- A host write and a command that change a register, and a reset that changes only where its contents come from. -/
theorem witness_RegistersChangeOnlyWhenWritten :
    (∃ t, step (busy .reset) = .next t ∧ originOf 0 t ≠ originOf 0 (busy .reset)) ∧
    (∃ t, step (busy (.hwrite 0x7 9)) = .next t ∧ readReg 7 t ≠ readReg 7 (busy (.hwrite 0x7 9))) ∧
    (∃ t, step (busy popcntWrite) = .next t ∧ readReg 1 t ≠ readReg 1 (busy popcntWrite)) :=
  ⟨⟨_, rfl, by decide⟩, ⟨_, rfl, by decide⟩, ⟨_, rfl, by decide⟩⟩

/-- The first clause with a legal and an illegal word; the second with another operation, and with none. -/
theorem witness_LastCmdIsTheLastCmdWrite :
    (∃ t, step (busy popcntWrite) = .next t) ∧ (∃ t, step (busy (.hwrite 0x8 0)) = .next t) ∧
    (∃ t, step (busy (.hread 0x8)) = .next t) ∧ (∃ t, step (unit 5 6 7) = .next t) ∧
    (∀ d rest, (busy (.hread 0x8)).host ≠ .hwrite 0x8#4 d :: rest) ∧
    (∀ rest, (busy (.hread 0x8)).host ≠ .reset :: rest) ∧
    (∀ d rest, (unit 5 6 7).host ≠ .hwrite 0x8#4 d :: rest) ∧
    (∀ rest, (unit 5 6 7).host ≠ .reset :: rest) :=
  ⟨⟨_, rfl⟩, ⟨_, rfl⟩, ⟨_, rfl⟩, ⟨_, rfl⟩, fun _ _ h => (by injection h with h _; cases h),
    fun _ h => (by injection h with h _; cases h), (fun _ _ h => by cases h), fun _ h => by cases h⟩

/-- With FOVF set and `X0` written. -/
theorem witness_ConditionsComeWithWritesIsKept :
    statusHas .fovf (busy popcntWrite) ∧ conditionsComeWithWrites (busy popcntWrite) ∧
    ∃ t, step (busy popcntWrite) = .next t :=
  ⟨rfl, fun _ => ⟨0, by decide⟩, ⟨_, rfl⟩⟩

/-- Two states that differ in a register the command does not use, in STATUS and in LASTCMD. -/
theorem witness_OnlySourcesMatter :
    (∀ operand, ∀ r ∈ sourcesOf (.selw 7 0 1 1), readSource operand r (unit 5 6 7) =
      readSource operand r { (busy popcntWrite) with regs := (unit 5 6 8).regs }) ∧
    (unit 5 6 7).draws = (busy popcntWrite).draws ∧ readReg 2 (unit 5 6 7) ≠ readReg 2 (unit 5 6 8) := by
  decide

/-- Two states that differ in `X3`, which neither has written. -/
theorem witness_UnwrittenContentsNeverMatter :
    AgreeOnWritten (asked popcntWrite 5 6 7)
      { (asked popcntWrite 5 6 7) with regs := #v[5, 6, 7, 1, 0, 0, 0, 0] } ∧
    readsOnlyWritten (asked popcntWrite 5 6 7) = true :=
  ⟨⟨rfl, by decide, rfl, rfl, rfl, rfl, rfl, rfl⟩, by decide⟩

/-- Two states that differ in `X0`, which a reset has left unspecified and the next host operation reads. -/
theorem witness_UnspecifiedContentsNeverMatter :
    AgreeOnSpecified (afterReset (.hread 0x0))
      { (afterReset (.hread 0x0)) with regs := #v[8, 6, 7, 0, 0, 0, 0, 0] } ∧
    readReg 0 (afterReset (.hread 0x0)) = 5 :=
  ⟨⟨rfl, fun r h => absurd (by revert r; decide) h, rfl, rfl, rfl, rfl, rfl, rfl⟩, rfl⟩

theorem witness_ReadsYieldWhatIsHeldUnlessUnspecified :
    originOf 0 (unit 5 6 7) ≠ .unspecified ∧ originOf 0 State.reset ≠ .unspecified ∧
    originOf 0 (resetUnit (unit 5 6 7)) = .unspecified := by decide

/-- A host read of a register left unspecified and of a named one, a command with a source left unspecified, one with an
unwritten second source, and steps that read only written registers and others. -/
theorem witness_UnwrittenReadsAreFaults :
    ((afterReset (.hread 0x7)).host = [.hread 0x7#4] ∧ (0x7#4).toNat = (7 : Reg).val ∧
      originOf 7 (afterReset (.hread 0x7)) = .unspecified) ∧
    ((asked (.hread 0x7) 5 6 7).host = [.hread 0x7#4] ∧ originOf 7 (asked (.hread 0x7) 5 6 7) = .named) ∧
    ((afterReset (.hwrite 0x8 0x0000C520)).host = [.hwrite 0x8#4 0x0000C520#64] ∧
      3 ∈ sourcesOf (.add 5 0 3) ∧ originOf 3 (afterReset (.hwrite 0x8 0x0000C520)) = .unspecified) ∧
    ((asked (.hwrite 0x8 0x0000C520) 5 6 7).host = [.hwrite 0x8#4 0x0000C520#64] ∧
      decodeData 0x0000C520#64 = .legal (.add 5 0 3) ∧
      (∀ r ∈ sourcesOf (.add 5 0 3), originOf r (asked (.hwrite 0x8 0x0000C520) 5 6 7) ≠ .unspecified) ∧
      isWritten 3 (asked (.hwrite 0x8 0x0000C520) 5 6 7) = false) ∧
    (next (step (asked popcntWrite 5 6 7)) fun _ => readsOnlyWritten (asked popcntWrite 5 6 7)) = true := by
  decide

/-- A step whose host operation reads a written register, and one that reads an unspecified one. -/
theorem witness_HostOperationsCompleteOrMeetAReadFault :
    readsOnlySpecified (busy popcntWrite) = true ∧
    readsOnlySpecified (afterReset (.hread 0x7)) = false := by decide

/-- No register is unspecified at reset, nor in a unit that has a command and a write to come and no reset. -/
theorem witness_RunsWithoutResetNeverStop :
    (∀ r, originOf r State.reset ≠ .unspecified) ∧
    (∀ r, originOf r (busy popcntWrite) ≠ .unspecified) ∧
    .reset ∉ (busy popcntWrite).host.take 1 := by decide

/-- A run of one step that reads a written register, and one that reads an unwritten one. -/
theorem witness_RunsAreFreeOfFaultsWhenOnlyWrittenIsRead :
    (∃ t, core.run 1 (asked popcntWrite 5 6 7) = .next t ∧ State.readFaults t = []) ∧
    (∃ t, core.run 1 (asked (.hread 0x7) 5 6 7) = .next t ∧ State.readFaults t = [⟨1, 7⟩]) :=
  ⟨⟨_, rfl, by decide⟩, ⟨_, rfl, by decide⟩⟩

/-- The precondition at its last value, and failing at its first. -/
theorem witness_SelwGivesTheKthOne :
    (operandB 1 (unit 0x8000000000000003 2 0)).toNat <
      onesBelow (operandA 0 (unit 0x8000000000000003 2 0)) 64 ∧
    ¬ (operandB 1 (unit 0x8000000000000003 3 0)).toNat <
      onesBelow (operandA 0 (unit 0x8000000000000003 3 0)) 64 := by decide

theorem witness_SelwZeroGivesTheKthZero :
    (operandB 1 (unit 0x8000000000000003 0x3C 0)).toNat <
      zerosBelow (operandA 0 (unit 0x8000000000000003 0x3C 0)) 64 ∧
    ¬ (operandB 1 (unit 0x8000000000000003 0x3D 0)).toNat <
      zerosBelow (operandA 0 (unit 0x8000000000000003 0x3D 0)) 64 := by decide

/-- Byte 0x55 has four 1 bits: index 3 is the last that is found, index 4 the first that is not. -/
theorem witness_SeltabReadsTheTable :
    (operandB 1 (unit 0x55 3 0)).toNat % 8 < onesBelow (operandA 0 (unit 0x55 3 0)) 8 ∧
    onesBelow (operandA 0 (unit 0x55 4 0)) 8 ≤ (operandB 1 (unit 0x55 4 0)).toNat % 8 := by decide

theorem witness_RecipeIsTheClosedForm : (2#64).toNat < popcount 0x8000000000000003#64 := by decide

/-- The largest `k`. -/
theorem witness_SwarLanesCountBits : (63#64).toNat + 1 ≤ 64 ∧ 7 < 8 ∧ 31 < 32 ∧ 15 < 16 := by decide

/-- The thresholds 0, 64, 128, ..., 448. -/
theorem witness_TreeGivesTheLargestThreshold :
    (fun i : Fin 8 => BitVec.ofNat 64 (64 * i.val)) 0 = 0#64 ∧
    ∀ i j : Fin 8, i ≤ j → BitVec.ofNat 64 (64 * i.val) ≤ BitVec.ofNat 64 (64 * j.val) := by decide

theorem witness_FieldReadAfterWrite : (7 : Fin 8) ≠ 0 ∧ (1 : Fin 8) ≠ 7 := by decide

/-- Two rel words that differ in bits 63:59 only, and the first of these bits. -/
theorem witness_HighRelBitsAreIgnoredAndKept :
    (∀ i, i < 59 → (0xF800000000000001#64).getLsbD i = (1#64).getLsbD i) ∧
    0xF800000000000001#64 ≠ 1#64 ∧ 59 ≤ 59 := by decide

end Sys2Proof.Tests
end

section
/-! What a register read yields (00_scope.md R11, 10_state.md R34). -/

namespace Sys2Proof.Machine

/-- Settles O55: the two clauses are the model's two read rules, one on each side of whether a reset event has left the
register unspecified. -/
theorem readsYieldWhatIsHeldUnlessUnspecified :
    Obligations.ReadsYieldWhatIsHeldUnlessUnspecified := by
  unfold Obligations.ReadsYieldWhatIsHeldUnlessUnspecified
  intro operand r s
  constructor
  · intro specified
    exact readSource_of_specified specified operand
  · intro unspecified
    exact readSource_of_unspecified unspecified operand

end Sys2Proof.Machine
end

section
/-! Two states that agree on what a mark counts: no step that reads only counted registers tells them apart
(10_state.md R34; 70_reset_and_hazards.md R163). -/

namespace Sys2Proof.Machine

/-- The registers a host operation reads are named by the operation alone. -/
theorem registersRead_congr {s s' : State} (h : s.host = s'.host) :
    registersRead s = registersRead s' := by
  unfold registersRead; rw [h]

/-- Only a CMD write with a legal word issues a command, and it changes no register on the way. -/
theorem takeHostEvent_eq_some {s t : State} {i : Instr} (h : takeHostEvent s = (t, some i)) :
    ∃ d rest, s.host = .hwrite 0x8#4 d :: rest ∧ decodeData d = .legal i ∧
      t = setLastCmd d (taken rest s) := by
  obtain ⟨-, e⟩ | ⟨rest, -, e⟩ | ⟨a, rest, -, e⟩ | ⟨a, d, rest, hs, e⟩ := takeHostEvent_cases s
  · rw [e] at h; cases h
  · rw [e] at h; cases h
  · rw [e] at h; cases h
  · rw [e] at h
    cases hp : portSlot a with
    | x r => rw [hp] at h; cases h
    | status => rw [hp] at h; cases h
    | reserved => rw [hp] at h; cases h
    | cmd =>
      obtain rfl := portSlot_eq_cmd hp
      rw [hp] at h
      simp only [hostWrite, issueCommand] at h
      cases hd : decodeData d with
      | illegal c => rw [hd] at h; cases h
      | legal j => rw [hd] at h; cases h; exact ⟨d, rest, hs, hd, rfl⟩

/-- `selectInto` commits a value and a condition that the operands and the draw decide. -/
theorem selectInto_same_commit {s s' : State} (hd : s.draws = s'.draws) (rd : Reg)
    (w a b c : Word) (inv : Bool) :
    ∃ v cs, selectInto rd w a b c inv s = commit rd v cs s ∧
      selectInto rd w a b c inv s' = commit rd v cs s' := by
  unfold selectInto
  by_cases hb : b.toNat < popcount w
  · exact ⟨_, _, if_pos hb, if_pos hb⟩
  · exact ⟨_, _, if_neg hb, by rw [if_neg hb, hd]⟩

/-- What a command commits is decided by what the reads of its sources yield and by the draw. -/
theorem exec_same_commit {i : Instr} {s s' : State}
    (hsrc : ∀ operand, ∀ r ∈ sourcesOf i, readSource operand r s = readSource operand r s')
    (hd : s.draws = s'.draws) :
    ∃ v cs, exec i s = .next (commit (destOf i) v cs s) ∧
      exec i s' = .next (commit (destOf i) v cs s') := by
  cases i <;> simp only [sourcesOf, List.mem_cons, List.not_mem_nil, or_false, forall_eq_or_imp,
    forall_eq] at hsrc
  case selw rd rs1 rs2 rs3 =>
    obtain ⟨v, cs, e, e'⟩ := selectInto_same_commit hd rd (operandA rs1 s) (operandA rs1 s)
      (operandB rs2 s) (operandC rs3 s) false
    refine ⟨v, cs, congrArg _ e, ?_⟩
    simp only [operandA, operandB, operandC, hsrc] at e'
    exact congrArg _ e'
  case selw0 rd rs1 rs2 rs3 =>
    obtain ⟨v, cs, e, e'⟩ := selectInto_same_commit hd rd (~~~(operandA rs1 s)) (operandA rs1 s)
      (operandB rs2 s) (operandC rs3 s) true
    refine ⟨v, cs, congrArg _ e, ?_⟩
    simp only [operandA, operandB, operandC, hsrc] at e'
    exact congrArg _ e'
  all_goals
    refine ⟨_, _, rfl, ?_⟩
    simp only [operandA, operandB, operandC, hsrc]
    rfl

end Sys2Proof.Machine

namespace Sys2Proof

open Machine

section Agreement

variable {counts : RegOrigin → Prop} {s s' : State}

theorem AgreeOn.originOf_eq (h : AgreeOn counts s s') (r : Reg) : originOf r s = originOf r s' :=
  originOf_congr h.origin r

theorem AgreeOn.isWritten_eq (h : AgreeOn counts s s') (r : Reg) : isWritten r s = isWritten r s' :=
  isWritten_congr h.origin r

/-- The host operation stops at the same read in both states. -/
theorem AgreeOn.readFault_eq (h : AgreeOn counts s s') : readFault s = readFault s' := by
  simp only [readFault, unspecifiedReads, registersRead_congr h.host, h.originOf_eq]

/-- The host operation puts the same reads on record in both states. -/
theorem AgreeOn.readFaultsAfter_eq (h : AgreeOn counts s s') :
    readFaultsAfter s = readFaultsAfter s' := by
  simp only [readFaultsAfter, unwrittenReads, registersRead_congr h.host, h.isWritten_eq, h.draws,
    h.readFaults]

/-- A read of a register whose contents count yields the same in both states. -/
theorem AgreeOn.readSource_eq (h : AgreeOn counts s s') {r : Reg} (hc : counts (originOf r s))
    (operand : Fin 3) : readSource operand r s = readSource operand r s' := by
  unfold readSource
  rw [h.regs r hc, h.originOf_eq, h.draws]

/-! Each update keeps the agreement. -/

theorem AgreeOn.flag (h : AgreeOn counts s s') (c : Condition) :
    AgreeOn counts (flag c s) (flag c s') :=
  { h with status := congrArg (· ||| conditionMask c) h.status }

theorem AgreeOn.clearStatus (h : AgreeOn counts s s') (d : Word) :
    AgreeOn counts (clearStatus d s) (clearStatus d s') :=
  { h with status := congrArg (· &&& ~~~(d.extractLsb' 0 4)) h.status }

theorem AgreeOn.setLastCmd (h : AgreeOn counts s s') (d : Word) :
    AgreeOn counts (setLastCmd d s) (setLastCmd d s') :=
  { h with lastCmd := rfl }

theorem AgreeOn.reply (h : AgreeOn counts s s') (d : Word) :
    AgreeOn counts (reply d s) (reply d s') :=
  { h with replies := congrArg (d :: ·) h.replies }

theorem AgreeOn.taken (h : AgreeOn counts s s') (rest : List HostEvent) :
    AgreeOn counts (taken rest s) (taken rest s') :=
  { h with
    host := rfl
    draws := congrArg (· + 1) h.draws
    readFaults := h.readFaultsAfter_eq }

/-- A reset leaves no register that counts. -/
theorem AgreeOn.resetUnit (h : AgreeOn counts s s') (hu : ¬ counts .unspecified) :
    AgreeOn counts (resetUnit s) (resetUnit s') :=
  { h with
    origin := rfl
    regs := fun r hc => absurd (originOf_resetUnit r s ▸ hc) hu
    lastCmd := rfl
    status := rfl }

theorem AgreeOn.writeReg (h : AgreeOn counts s s') (r : Reg) (v : Word) :
    AgreeOn counts (writeReg r v s) (writeReg r v s') :=
  { h with
    origin := congrArg (·.set r .written) h.origin
    regs := by
      intro q hc
      rw [originOf_writeReg] at hc
      rw [readReg_writeReg, readReg_writeReg]
      by_cases hq : q = r
      · rw [if_pos hq, if_pos hq]
      · rw [if_neg hq, if_neg hq]
        exact h.regs q (by rwa [if_neg hq] at hc) }

theorem AgreeOn.commit (h : AgreeOn counts s s') (rd : Reg) (v : Word) (cs : List Condition) :
    AgreeOn counts (commit rd v cs s) (commit rd v cs s') := by
  rw [commit_eq, commit_eq]
  exact { h.writeReg rd v with status := congrArg (statusWith cs) h.status }

/-- A host read returns the same data in both states. -/
theorem AgreeOn.readData_eq (h : AgreeOn counts s s') {p : PortSlot}
    (hc : ∀ r, p = .x r → counts (originOf r s)) : readData p s = readData p s' := by
  cases p with
  | x r => exact h.readSource_eq (hc r rfl) 0
  | cmd => exact congrArg (BitVec.setWidth 64) h.lastCmd
  | status => exact congrArg (BitVec.setWidth 64) h.status
  | reserved => rfl

theorem AgreeOn.hostRead (h : AgreeOn counts s s') {p : PortSlot}
    (hc : ∀ r, p = .x r → counts (originOf r s)) :
    AgreeOn counts (hostRead p s) (hostRead p s') := by
  have hreply : AgreeOn counts (Machine.reply (readData p s) s) (Machine.reply (readData p s') s') :=
    h.readData_eq hc ▸ h.reply _
  cases p with
  | x r => exact hreply
  | cmd => exact hreply
  | status => exact hreply
  | reserved => exact hreply.flag .hadr

/-- A CMD write issues the same command, or none, whatever the state, and leaves states that agree. -/
theorem AgreeOn.issueCommand (h : AgreeOn counts s s') (d : Word) :
    ∃ t t' o, issueCommand d s = (t, o) ∧ issueCommand d s' = (t', o) ∧ AgreeOn counts t t' := by
  unfold Machine.issueCommand
  cases decodeData d with
  | illegal c => exact ⟨_, _, _, rfl, rfl, (h.setLastCmd d).flag .ill⟩
  | legal i => exact ⟨_, _, _, rfl, rfl, h.setLastCmd d⟩

/-- Any host write hands over the same command, or none, and leaves states that agree. -/
theorem AgreeOn.hostWrite (h : AgreeOn counts s s') (p : PortSlot) (d : Word) :
    ∃ t t' o, hostWrite p d s = (t, o) ∧ hostWrite p d s' = (t', o) ∧ AgreeOn counts t t' := by
  cases p with
  | x r => exact ⟨_, _, _, rfl, rfl, h.writeReg r d⟩
  | cmd => exact h.issueCommand d
  | status => exact ⟨_, _, _, rfl, rfl, h.clearStatus d⟩
  | reserved => exact ⟨_, _, _, rfl, rfl, h.flag .hadr⟩

end Agreement

/-- A host operation that reads only registers that count issues the same command, or none, in both states, and up to
that command leaves states that agree. -/
theorem AgreeOn.takeHostEvent {counts : RegOrigin → Prop} {s s' : State} (h : AgreeOn counts s s')
    (hu : ¬ counts .unspecified) (hr : ∀ r ∈ registersRead s, counts (originOf r s)) :
    ∃ t t' o, takeHostEvent s = (t, o) ∧ takeHostEvent s' = (t', o) ∧ AgreeOn counts t t' := by
  unfold Machine.takeHostEvent
  rw [← h.host]
  cases hs : s.host with
  | nil => exact ⟨_, _, _, rfl, rfl, h⟩
  | cons e rest =>
    cases e with
    | reset => exact ⟨_, _, _, rfl, rfl, (h.taken rest).resetUnit hu⟩
    | hwrite a d => exact (h.taken rest).hostWrite (portSlot a) d
    | hread a =>
      refine ⟨_, _, _, rfl, rfl, (h.taken rest).hostRead fun r hp => ?_⟩
      exact hr r (by simp [registersRead, hs, hp])

/-- A command whose sources count commits the same in both states. -/
theorem AgreeOn.exec {counts : RegOrigin → Prop} {s s' : State} (h : AgreeOn counts s s')
    {i : Instr} (hc : ∀ r ∈ sourcesOf i, counts (originOf r s)) :
    ∃ t t', exec i s = .next t ∧ exec i s' = .next t' ∧ AgreeOn counts t t' := by
  obtain ⟨v, cs, e, e'⟩ :=
    exec_same_commit (fun operand r hr => h.readSource_eq (hc r hr) operand) h.draws
  exact ⟨_, _, e, e', h.commit (destOf i) v cs⟩

/-- A step that reads only registers that count goes on in both states and leaves states that agree. Unspecified ones
must not count: a read of one stops the step, and a reset makes all registers so. -/
theorem AgreeOn.step {counts : RegOrigin → Prop} {s s' : State} (h : AgreeOn counts s s')
    (hu : ¬ counts .unspecified) (hr : ∀ r ∈ registersRead s, counts (originOf r s)) :
    ∃ t t', step s = .next t ∧ step s' = .next t' ∧ AgreeOn counts t t' := by
  have hspec : readsOnlySpecified s = true :=
    readsOnlySpecified_iff.mpr fun r hm ho => hu (ho ▸ hr r hm)
  have hspec' : readsOnlySpecified s' = true := by
    rw [← readFault_eq_none_iff, ← h.readFault_eq, readFault_eq_none_iff]
    exact hspec
  obtain ⟨u, u', o, e, e', hagree⟩ := h.takeHostEvent hu hr
  cases o with
  | none => exact ⟨u, u', step_of_none hspec e, step_of_none hspec' e', hagree⟩
  | some i =>
    rw [step_of_some hspec e, step_of_some hspec' e']
    obtain ⟨d, rest, hs, hd, rfl⟩ := takeHostEvent_eq_some e
    exact hagree.exec fun r hm => hr r (registersRead_command hs hd ▸ hm)

/-- Settles O27: a step that reads only written registers keeps the agreement on them. -/
theorem unwrittenContentsNeverMatter : Obligations.UnwrittenContentsNeverMatter := by
  unfold Obligations.UnwrittenContentsNeverMatter
  intro s s' hagree hreads
  refine AgreeOn.step hagree (by decide) fun r hr => ?_
  have hwritten : isWritten r s = true := List.all_eq_true.mp hreads r hr
  exact beq_iff_eq.mp hwritten

/-- Settles O54: both states meet the same read fault, or the step reads only specified registers and keeps the
agreement on them. -/
theorem unspecifiedContentsNeverMatter : Obligations.UnspecifiedContentsNeverMatter := by
  unfold Obligations.UnspecifiedContentsNeverMatter
  intro s s' hagree
  cases hf : readFault s with
  | some f =>
    have hf' : readFault s' = some f := AgreeOn.readFault_eq hagree ▸ hf
    obtain ⟨r, hr, ho, rfl⟩ := readFault_eq_some hf
    exact .inr ⟨r, hr, ho, step_of_readFault hf, step_of_readFault hf'⟩
  | none =>
    have hreads := readsOnlySpecified_iff.mp (readFault_eq_none_iff.mp hf)
    exact .inl (AgreeOn.step hagree (fun hu => hu rfl) hreads)

end Sys2Proof
end

section
/-! What a command changes, for every command (10_state.md R22, R23, R25; 60_exceptions.md R140, R147). -/

namespace Sys2Proof.Machine

/-- A command that answers a next state has changed its `rd`, the mark of it and STATUS, and nothing else. -/
theorem keepsAllBut_of_exec {i : Instr} {s t : State} (h : exec i s = .next t) :
    KeepsAllBut (destOf i) s t := by
  obtain ⟨v, e⟩ | ⟨v, -, e⟩ | ⟨v, -, e⟩ := exec_cases i s <;> rw [e] at h <;> cases h <;>
    exact keepsAllBut_commit ..

/-- Every command answers a next state (60_exceptions.md R140). -/
theorem exec_next (i : Instr) (s : State) : ∃ t, exec i s = .next t := by
  obtain ⟨v, e⟩ | ⟨v, -, e⟩ | ⟨v, -, e⟩ := exec_cases i s <;> exact ⟨_, e⟩

/-- Settles O16: `exec` ends in one of three commits, which flag nothing, SELR or FOVF. -/
theorem commandCompletesAndKeepsTheRest : Obligations.CommandCompletesAndKeepsTheRest := by
  unfold Obligations.CommandCompletesAndKeepsTheRest
  intro i s
  obtain ⟨v, e⟩ | ⟨v, hselect, e⟩ | ⟨v, hrelset, e⟩ := exec_cases i s
  · exact ⟨_, e, keepsAllBut_of_exec e, .inl (commit_status ..)⟩
  · exact ⟨_, e, keepsAllBut_of_exec e, .inr (.inl ⟨hselect, commit_status ..⟩)⟩
  · exact ⟨_, e, keepsAllBut_of_exec e, .inr (.inr ⟨hrelset, commit_status ..⟩)⟩

end Sys2Proof.Machine
end

section
/-! STATUS bits along a step and along a run (10_state.md R27, R28; 60_exceptions.md R157). -/

namespace Sys2Proof.Machine

/-- Flagging clears no bit. -/
theorem statusHas_flag {c : Condition} {s : State} (h : statusHas c s) (c' : Condition) :
    statusHas c (flag c' s) := by
  unfold statusHas at *
  rw [flag_status, getLsbD_or_conditionMask, h, Bool.true_or]

/-- A STATUS write clears only the bits where its data has a 1. -/
theorem statusHas_clearStatus {c : Condition} {s : State} {d : Word} (h : statusHas c s)
    (hd : d.getLsbD (conditionBit c) = false) : statusHas c (clearStatus d s) := by
  have hbit : conditionBit c < 4 := by cases c <;> decide
  unfold statusHas at *
  simp [h, hd, hbit]

/-- A host read clears no bit. -/
theorem statusHas_hostRead {c : Condition} {s : State} (h : statusHas c s) (p : PortSlot) :
    statusHas c (hostRead p s) := by
  cases p with
  | x r => exact h
  | cmd => exact h
  | status => exact h
  | reserved => exact statusHas_flag (s := reply _ s) h .hadr

/-- A command clears no bit. -/
theorem statusHas_exec {c : Condition} {i : Instr} {s t : State} (h : statusHas c s)
    (he : exec i s = .next t) : statusHas c t := by
  obtain ⟨v, e⟩ | ⟨v, -, e⟩ | ⟨v, -, e⟩ := exec_cases i s <;> rw [e] at he <;> cases he
  · exact h
  · exact statusHas_flag (s := writeReg _ v s) h .selr
  · exact statusHas_flag (s := writeReg _ v s) h .fovf

/-- Settles O19: of the cases of a step, only a STATUS write and a reset clear bits. -/
theorem statusBitsAreSticky : Obligations.StatusBitsAreSticky := by
  unfold Obligations.StatusBitsAreSticky
  intro s t c hstep h
  obtain ⟨-, rfl⟩ | ⟨rest, hs, -⟩ | ⟨a, rest, -, rfl⟩ | ⟨a, d, rest, r, -, -, rfl⟩ |
    ⟨a, d, rest, -, -, rfl⟩ | ⟨d, rest, hs, rfl⟩ | ⟨d, rest, -, -, rfl⟩ |
    ⟨d, rest, i, -, -, he⟩ := step_inv hstep
  · exact .inl h
  · exact .inr (.inr ⟨rest, hs⟩)
  · exact .inl (statusHas_hostRead (s := taken rest s) h _)
  · exact .inl h
  · exact .inl (statusHas_flag (s := taken rest s) h .hadr)
  · cases hd : d.getLsbD (conditionBit c) with
    | true => exact .inr (.inl ⟨d, rest, hs, hd⟩)
    | false => exact .inl (statusHas_clearStatus (s := taken rest s) h hd)
  · exact .inl (statusHas_flag (s := setLastCmd d (taken rest s)) h .ill)
  · exact .inl (statusHas_exec (s := setLastCmd d (taken rest s)) h he)

/-- A step takes the first host operation off the list. -/
theorem host_of_step {s t : State} (h : step s = .next t) : t.host = s.host.tail := by
  have hhost := takeHostEvent_host s
  obtain ⟨r, -, -, e⟩ | ⟨-, ⟨u, hu, e⟩ | ⟨u, i, hu, e⟩⟩ := step_cases s <;> rw [e] at h
  · cases h
  · cases h; rw [hu] at hhost; exact hhost
  · rw [hu] at hhost; exact (keepsAllBut_of_exec h).host.trans hhost

/-- A run of `n + 1` steps that answers a next state is a step and a run of `n` that do. -/
theorem run_succ_eq_next {n : Nat} {s t : State} :
    core.run (n + 1) s = .next t ↔ ∃ u, step s = .next u ∧ core.run n u = .next t := by
  rw [run_succ]
  cases step s <;> simp

/-- Settles O20, by induction on the number of steps: each is sticky, as none takes a reset or a STATUS write. -/
theorem conditionsStayAlongRuns : Obligations.ConditionsStayAlongRuns := by
  unfold Obligations.ConditionsStayAlongRuns
  intro n
  induction n with
  | zero =>
    intro s t c hrun _ h
    cases hrun
    exact h
  | succ n ih =>
    intro s t c hrun hevents h
    obtain ⟨u, hstep, hrun⟩ := run_succ_eq_next.mp hrun
    refine ih u t c hrun (fun e he => hevents e ?_) ?_
    · rw [host_of_step hstep] at he
      cases hs : s.host with
      | nil => simp [hs] at he
      | cons e' rest => rw [hs] at he; exact List.mem_cons_of_mem _ he
    · obtain hu | ⟨d, rest, hs, -⟩ | ⟨rest, hs⟩ := statusBitsAreSticky s u c hstep h
      · exact hu
      · exact absurd rfl ((hevents (.hwrite 0x9#4 d) (by simp [hs])).2 d)
      · exact absurd rfl (hevents .reset (by simp [hs])).1

end Sys2Proof.Machine
end

section
/-! What a step does to the operand registers and to LASTCMD (10_state.md R22, R23, R25, R33). -/

namespace Sys2Proof.Machine

/-- The address of an operand register is its number (20_memory.md R42). -/
theorem toNat_of_portSlot_reg {a : PortAddr} {r : Reg} (h : portSlot a = .x r) :
    a.toNat = r.val := by
  revert a r; decide

/-- An address that names another port slot is not that of CMD. -/
theorem ne_cmdAddress {a : PortAddr} {p : PortSlot} (h : portSlot a = p) (hp : p ≠ .cmd) :
    a ≠ 0x8#4 := by
  rintro rfl
  exact hp (h.symm.trans (by decide))

@[simp] theorem hostRead_regs (p : PortSlot) (s : State) : (hostRead p s).regs = s.regs := by
  cases p <;> rfl

@[simp] theorem hostRead_origin (p : PortSlot) (s : State) :
    (hostRead p s).origin = s.origin := by
  cases p <;> rfl

@[simp] theorem hostRead_lastCmd (p : PortSlot) (s : State) :
    (hostRead p s).lastCmd = s.lastCmd := by
  cases p <;> rfl

/-- A step keeps what a register holds and where that comes from, or is a host write of the register, a command with
it as `rd`, or a reset, which keeps what it holds. -/
theorem step_register_cases {s t : State} (h : step s = .next t) (r : Reg) :
    (readReg r t = readReg r s ∧ originOf r t = originOf r s) ∨
    (∃ a d rest, s.host = .hwrite a d :: rest ∧ a.toNat = r.val) ∨
    (∃ d rest i, s.host = .hwrite 0x8#4 d :: rest ∧ decodeData d = .legal i ∧ destOf i = r) ∨
    (readReg r t = readReg r s ∧ ∃ rest, s.host = .reset :: rest) := by
  have keeps : ∀ {t : State}, t.regs = s.regs → t.origin = s.origin →
      readReg r t = readReg r s ∧ originOf r t = originOf r s :=
    fun hregs horigin => ⟨readReg_congr hregs r, originOf_congr horigin r⟩
  obtain ⟨-, rfl⟩ | ⟨rest, hs, rfl⟩ | ⟨a, rest, -, rfl⟩ | ⟨a, d, rest, q, hs, hp, rfl⟩ |
    ⟨a, d, rest, -, -, rfl⟩ | ⟨d, rest, -, rfl⟩ | ⟨d, rest, -, -, rfl⟩ |
    ⟨d, rest, i, hs, hd, he⟩ := step_inv h
  · exact .inl ⟨rfl, rfl⟩
  · exact .inr (.inr (.inr ⟨rfl, rest, hs⟩))
  · exact .inl (keeps (by simp) (by simp))
  · by_cases hq : r = q
    · exact .inr (.inl ⟨a, d, rest, hs, hq ▸ toNat_of_portSlot_reg hp⟩)
    · exact .inl ⟨by simp [readReg_writeReg, hq], by simp [originOf_writeReg, hq]⟩
  · exact .inl (keeps rfl rfl)
  · exact .inl (keeps rfl rfl)
  · exact .inl (keeps rfl rfl)
  · by_cases hi : destOf i = r
    · exact .inr (.inr (.inl ⟨d, rest, i, hs, hd, hi⟩))
    · have hkeep := keepsAllBut_of_exec he
      exact .inl ⟨hkeep.regs r (Ne.symm hi), hkeep.origins r (Ne.symm hi)⟩

/-- Settles O22, by the cases of what a step does to a register. -/
theorem registersChangeOnlyWhenWritten : Obligations.RegistersChangeOnlyWhenWritten := by
  unfold Obligations.RegistersChangeOnlyWhenWritten
  intro s t r hstep
  obtain ⟨hreg, horigin⟩ | hwrite | hcommand | ⟨hreg, hreset⟩ := step_register_cases hstep r
  · exact ⟨fun hne => absurd hreg hne, fun hne => absurd horigin hne⟩
  · exact ⟨fun _ => .inl hwrite, fun _ => .inl hwrite⟩
  · exact ⟨fun _ => .inr hcommand, fun _ => .inr (.inl hcommand)⟩
  · exact ⟨fun hne => absurd hreg hne, fun _ => .inr (.inr hreset)⟩

/-- A step that takes a CMD write leaves its data's low half in LASTCMD; any other but a reset keeps LASTCMD. -/
theorem step_lastCmd_cases {s t : State} (h : step s = .next t) :
    (∃ d rest, s.host = .hwrite 0x8#4 d :: rest ∧ t.lastCmd = d.extractLsb' 0 32) ∨
    (∃ rest, s.host = .reset :: rest) ∨
    ((∀ d rest, s.host ≠ .hwrite 0x8#4 d :: rest) ∧ t.lastCmd = s.lastCmd) := by
  obtain ⟨hs, rfl⟩ | ⟨rest, hs, -⟩ | ⟨a, rest, hs, rfl⟩ | ⟨a, d, rest, q, hs, hp, rfl⟩ |
    ⟨a, d, rest, hs, hp, rfl⟩ | ⟨d, rest, hs, rfl⟩ | ⟨d, rest, hs, -, rfl⟩ |
    ⟨d, rest, i, hs, -, he⟩ := step_inv h
  · exact .inr (.inr ⟨by simp [hs], rfl⟩)
  · exact .inr (.inl ⟨rest, hs⟩)
  · exact .inr (.inr ⟨by simp [hs], by simp⟩)
  · exact .inr (.inr ⟨by simp [hs, ne_cmdAddress hp], rfl⟩)
  · exact .inr (.inr ⟨by simp [hs, ne_cmdAddress hp], rfl⟩)
  · exact .inr (.inr ⟨by simp [hs], rfl⟩)
  · exact .inl ⟨d, rest, hs, rfl⟩
  · exact .inl ⟨d, rest, hs, (keepsAllBut_of_exec he).lastCmd⟩

/-- Settles O23, by the cases of what a step does to LASTCMD. -/
theorem lastCmdIsTheLastCmdWrite : Obligations.LastCmdIsTheLastCmdWrite := by
  unfold Obligations.LastCmdIsTheLastCmdWrite
  intro s t hstep
  obtain ⟨d, rest, hs, hlast⟩ | ⟨rest, hs⟩ | ⟨hno, hlast⟩ := step_lastCmd_cases hstep
  · refine ⟨fun d' rest' hs' => ?_, fun hno => absurd hs (hno d rest)⟩
    cases hs.symm.trans hs'
    exact hlast
  · refine ⟨fun d' rest' hs' => ?_, fun _ hno => absurd hs (hno rest)⟩
    cases hs.symm.trans hs'
  · exact ⟨fun d' rest' hs' => absurd hs' (hno d' rest'), fun _ _ => hlast⟩

end Sys2Proof.Machine
end

section
/-! Reads of registers not written since reset: which stop the step, and which go on record (10_state.md R34). -/

namespace Sys2Proof.Machine

/-- A step that reads an unspecified register stops at the fault that names one such. -/
theorem step_fault_of_unspecified {s : State} {r : Reg} (hr : r ∈ registersRead s)
    (ho : originOf r s = .unspecified) :
    ∃ q ∈ registersRead s, originOf q s = .unspecified ∧ step s = .fault (.unspecifiedRead q) := by
  obtain hfault | ⟨hspec, -⟩ := step_cases s
  · exact hfault
  · exact absurd ho (readsOnlySpecified_iff.mp hspec r hr)

/-- A step that reads no unspecified register answers a next state. -/
theorem step_next_of_specified {s : State} (h : readsOnlySpecified s = true) :
    ∃ t, step s = .next t := by
  obtain ⟨r, hr, ho, -⟩ | ⟨-, ⟨u, -, e⟩ | ⟨u, i, -, e⟩⟩ := step_cases s
  · exact absurd ho (readsOnlySpecified_iff.mp h r hr)
  · exact ⟨u, e⟩
  · rw [e]; exact exec_next i u

/-- A host read of a register that a reset event has left unspecified stops the step. -/
theorem step_hread_of_unspecified {s : State} {a : PortAddr} {rest : List HostEvent} {r : Reg}
    (hs : s.host = .hread a :: rest) (ha : a.toNat = r.val) (ho : originOf r s = .unspecified) :
    step s = .fault (.unspecifiedRead r) := by
  have hreads := registersRead_hread hs ha
  obtain ⟨q, hq, -, e⟩ := step_fault_of_unspecified (r := r) (by simp [hreads]) ho
  rw [hreads, List.mem_singleton] at hq
  rw [e, hq]

/-- A host read of a register that holds what `State.reset` names for it goes on, and on record. -/
theorem step_hread_of_named {s : State} {a : PortAddr} {rest : List HostEvent} {r : Reg}
    (hs : s.host = .hread a :: rest) (ha : a.toNat = r.val) (ho : originOf r s = .named) :
    ∃ t, step s = .next t ∧ t.readFaults = ⟨s.draws + 1, r⟩ :: s.readFaults := by
  have hreads := registersRead_hread hs ha
  obtain ⟨t, e⟩ := step_next_of_specified (s := s)
    (readsOnlySpecified_iff.mpr (by simp [hreads, ho]))
  refine ⟨t, e, ?_⟩
  rw [step_readFaults e]
  simp [readFaultsAfter, unwrittenReads, hreads, isWritten, ho]

/-- A step keeps the whole record as the older part of the new one. -/
theorem readFaults_suffix_of_step {s t : State} (h : step s = .next t) :
    s.readFaults <:+ t.readFaults := by
  rw [step_readFaults h]
  exact List.suffix_append ..

/-- An unwritten read that does not stop the step goes on record with the operation that made it. -/
theorem mem_readFaults_of_step {s t : State} (h : step s = .next t) {r : Reg}
    (hr : r ∈ registersRead s) (hw : isWritten r s = false) :
    ⟨s.draws + 1, r⟩ ∈ t.readFaults := by
  rw [step_readFaults h]
  exact List.mem_append_left _ (List.mem_map.mpr ⟨r, mem_unwrittenReads.mpr ⟨hr, hw⟩, rfl⟩)

/-- A step records nothing exactly where it reads only written registers. -/
theorem readFaults_eq_iff_of_step {s t : State} (h : step s = .next t) :
    t.readFaults = s.readFaults ↔ readsOnlyWritten s = true := by
  rw [step_readFaults h]
  exact readFaultsAfter_eq_iff

/-- Settles O56: its clauses are the rules above, for a host read, for a command's sources and for every step. -/
theorem unwrittenReadsAreFaults : Obligations.UnwrittenReadsAreFaults := by
  unfold Obligations.UnwrittenReadsAreFaults
  intro s
  refine ⟨fun a rest r hs ha => ?_, fun d rest i hs hd => ?_, fun t hstep => ?_⟩
  · exact ⟨step_hread_of_unspecified hs ha, step_hread_of_named hs ha⟩
  · rw [← registersRead_command hs hd]
    refine ⟨fun r hr ho => step_fault_of_unspecified hr ho, fun hspec => ?_⟩
    obtain ⟨t, hstep⟩ := step_next_of_specified (readsOnlySpecified_iff.mpr hspec)
    exact ⟨t, hstep, fun r hr hw => mem_readFaults_of_step hstep hr hw⟩
  · exact ⟨readFaults_eq_iff_of_step hstep,
      fun f hf => (readFaults_suffix_of_step hstep).subset hf⟩

/-- A run keeps the whole record as the older part of the new one. -/
theorem readFaults_suffix_of_run {n : Nat} {s t : State} (h : core.run n s = .next t) :
    s.readFaults <:+ t.readFaults := by
  induction n generalizing s with
  | zero => cases h; exact List.suffix_rfl
  | succ n ih =>
    obtain ⟨u, hstep, hrun⟩ := run_succ_eq_next.mp h
    exact (readFaults_suffix_of_step hstep).trans (ih hrun)

theorem runReadsOnlyWritten_succ_of_step {s u : State} (h : step s = .next u) (n : Nat) :
    runReadsOnlyWritten (n + 1) s = true ↔
      readsOnlyWritten s = true ∧ runReadsOnlyWritten n u = true := by
  simp [runReadsOnlyWritten, h]

/-- Settles O57, by induction on the number of steps: a record that only grows is the same at the end exactly when no
step adds to it. -/
theorem runsAreFreeOfFaultsWhenOnlyWrittenIsRead :
    Obligations.RunsAreFreeOfFaultsWhenOnlyWrittenIsRead := by
  unfold Obligations.RunsAreFreeOfFaultsWhenOnlyWrittenIsRead
  intro n
  induction n with
  | zero =>
    intro s t hrun
    cases hrun
    exact iff_of_true rfl rfl
  | succ n ih =>
    intro s t hrun
    obtain ⟨u, hstep, hrun⟩ := run_succ_eq_next.mp hrun
    rw [runReadsOnlyWritten_succ_of_step hstep, ← readFaults_eq_iff_of_step hstep, ← ih u t hrun]
    constructor
    · intro hsame
      have hu : u.readFaults = s.readFaults :=
        ((readFaults_suffix_of_run hrun).eq_of_length_le
          (hsame ▸ (readFaults_suffix_of_step hstep).length_le)).trans hsame
      exact ⟨hu, hsame.trans hu.symm⟩
    · rintro ⟨hu, ht⟩
      exact ht.trans hu

end Sys2Proof.Machine
end

section
/-! The state after reset, and a reset inside a run (10_state.md R33; 70_reset_and_hazards.md R160, R161). -/

namespace Sys2Proof.Machine

/-- Settles O13: both fields are 0 in `State.reset`. -/
theorem resetLeavesStatusAndLastCmdZero : Obligations.ResetLeavesStatusAndLastCmdZero := by
  unfold Obligations.ResetLeavesStatusAndLastCmdZero
  exact ⟨rfl, rfl⟩

@[simp] theorem readReg_reset (r : Reg) : readReg r State.reset = 0#64 := by
  simp [readReg, State.reset]

@[simp] theorem originOf_reset (r : Reg) : originOf r State.reset = .named := by
  simp [originOf, State.reset]

/-- Settles O14: each register is marked as named at reset, so that a read yields the 0 it holds. -/
theorem resetNamesTheRegisterValue : Obligations.ResetNamesTheRegisterValue := by
  unfold Obligations.ResetNamesTheRegisterValue
  intro r
  refine ⟨readReg_reset r, fun operand => ?_, by simp [isWritten], rfl⟩
  rw [readSource_of_specified (by simp), readReg_reset]

/-- A step that takes a reset resets the unit and records no read. -/
theorem step_reset {s : State} {rest : List HostEvent} (hs : s.host = .reset :: rest) :
    step s = .next (resetUnit (taken rest s)) := by
  have hreads : registersRead s = [] := by simp [registersRead, hs]
  refine step_of_none (readsOnlySpecified_of_none hreads) ?_
  simp [takeHostEvent, hs, performEvent]

/-- Settles O15: the next state is that of `resetUnit` with the event taken. -/
theorem resetEventClearsControlState : Obligations.ResetEventClearsControlState := by
  unfold Obligations.ResetEventClearsControlState
  intro s rest hs
  have hrecord : readFaultsAfter s = s.readFaults :=
    readFaultsAfter_of_none (by simp [registersRead, hs])
  exact ⟨_, step_reset hs, rfl, rfl, fun r => by simp, rfl, rfl, rfl, hrecord⟩

/-- Where STATUS is 0, no condition is recorded. -/
theorem not_statusHas_of_zero {s : State} (h : s.status = 0#4) (c : Condition) :
    ¬ statusHas c s := by
  simp [statusHas, h]

/-- Settles O25: no STATUS bit is 1 in `State.reset`. -/
theorem resetMeetsConditionsComeWithWrites : Obligations.ResetMeetsConditionsComeWithWrites := by
  unfold Obligations.ResetMeetsConditionsComeWithWrites conditionsComeWithWrites
  rintro (hselr | hfovf)
  · exact absurd hselr (not_statusHas_of_zero rfl .selr)
  · exact absurd hfovf (not_statusHas_of_zero rfl .fovf)

end Sys2Proof.Machine
end

section
/-! The host port: what a step does at each address, read or written (20_memory.md R43 to R47). -/

namespace Sys2Proof.Machine

section HostPort

variable {s : State} {a : PortAddr} {d : Word} {i : Instr} {rest : List HostEvent}

/-- An operation that reads no operand register is taken off the list and counted; nothing goes on record. -/
theorem taken_of_no_reads (h : registersRead s = []) :
    taken rest s = { s with host := rest, draws := s.draws + 1 } := by
  simp only [taken, nextDraw, readFaultsAfter_of_none h]

/-- A host read reads an operand register only at the address of one. -/
theorem registersRead_hread_of_not_register (hs : s.host = .hread a :: rest)
    (hp : ∀ r, portSlot a ≠ .x r) : registersRead s = [] := by
  cases hslot : portSlot a with
  | x r => exact absurd hslot (hp r)
  | cmd => simp [registersRead, hs, hslot]
  | status => simp [registersRead, hs, hslot]
  | reserved => simp [registersRead, hs, hslot]

/-- A host write reads operand registers only at the address of CMD. -/
theorem registersRead_hwrite_of_not_command (hs : s.host = .hwrite a d :: rest)
    (hp : portSlot a ≠ .cmd) : registersRead s = [] := by
  cases hslot : portSlot a with
  | x r => simp [registersRead, hs, hslot]
  | cmd => exact absurd hslot hp
  | status => simp [registersRead, hs, hslot]
  | reserved => simp [registersRead, hs, hslot]

/-- Only a write at the address of CMD hands over a command. -/
theorem hostWrite_of_not_command {p : PortSlot} (hp : p ≠ .cmd) :
    hostWrite p d s = ((hostWrite p d s).1, none) := by
  cases p with
  | x r => rfl
  | cmd => exact absurd rfl hp
  | status => rfl
  | reserved => rfl

/-- A step that takes a host read and meets no read fault. -/
theorem step_hread (hs : s.host = .hread a :: rest) (hspec : readsOnlySpecified s = true) :
    step s = .next (hostRead (portSlot a) (taken rest s)) :=
  step_of_none hspec (by simp only [takeHostEvent, hs, performEvent])

/-- A step that takes a host read of no operand register. -/
theorem step_hread_of_not_register (hs : s.host = .hread a :: rest)
    (hp : ∀ r, portSlot a ≠ .x r) :
    step s = .next (hostRead (portSlot a) { s with host := rest, draws := s.draws + 1 }) := by
  have hreads := registersRead_hread_of_not_register hs hp
  rw [step_hread hs (readsOnlySpecified_of_none hreads), taken_of_no_reads hreads]

/-- A step that takes a host write to any address but that of CMD. -/
theorem step_hwrite_of_not_command (hs : s.host = .hwrite a d :: rest) (hp : portSlot a ≠ .cmd) :
    step s = .next (hostWrite (portSlot a) d { s with host := rest, draws := s.draws + 1 }).1 := by
  have hreads := registersRead_hwrite_of_not_command hs hp
  rw [← taken_of_no_reads hreads]
  refine step_of_none (readsOnlySpecified_of_none hreads) ?_
  simp only [takeHostEvent, hs, performEvent]
  exact hostWrite_of_not_command hp

/-- A step that takes a host write to the address of an operand register. -/
theorem step_hwrite_of_register {r : Reg} (hs : s.host = .hwrite a d :: rest)
    (ha : a.toNat = r.val) :
    step s = .next (writeReg r d { s with host := rest, draws := s.draws + 1 }) := by
  have hp : portSlot a = .x r := portSlot_of_reg ha
  rw [step_hwrite_of_not_command hs (by simp [hp]), hp]
  rfl

/-- CMD data whose high half is 0 stands for what its low half decodes to. -/
theorem decodeData_of_high_zero (h : d.extractLsb' 32 32 = 0#32) :
    decodeData d = decode (d.extractLsb' 0 32) :=
  if_pos h

/-- A step that takes a CMD write with a legal word and meets no read fault. -/
theorem step_command (hs : s.host = .hwrite 0x8#4 d :: rest) (hd : decodeData d = .legal i)
    (hspec : readsOnlySpecified s = true) :
    step s = exec i (setLastCmd d (taken rest s)) := by
  have hp : portSlot 0x8#4 = .cmd := by decide
  refine step_of_some hspec ?_
  simp only [takeHostEvent, hs, performEvent, hp, hostWrite, issueCommand, hd]

/-- The record after one register is read. -/
theorem readFaultsAfter_of_one_read {r : Reg} (h : registersRead s = [r]) :
    readFaultsAfter s =
      if isWritten r s then s.readFaults else ⟨s.draws + 1, r⟩ :: s.readFaults := by
  cases hw : isWritten r s <;> simp [readFaultsAfter, unwrittenReads, h, hw]

/-- A host read of a register that no reset event has left unspecified replies what the register holds. -/
theorem step_hread_of_specified {r : Reg} (hs : s.host = .hread a :: rest)
    (ha : a.toNat = r.val) (ho : originOf r s ≠ .unspecified) :
    step s = .next (reply (readReg r s) (taken rest s)) := by
  have hspec : readsOnlySpecified s = true :=
    readsOnlySpecified_iff.mpr (by simpa [registersRead_hread hs ha] using ho)
  have hdata : readSource 0 r (taken rest s) = readReg r s :=
    readSource_of_specified (s := taken rest s) ho 0
  rw [step_hread hs hspec, portSlot_of_reg ha, ← hdata]
  rfl

end HostPort

/-- Settles O6: the command's sources are the registers the write reads, so the step meets a read fault exactly where
one of them is unspecified, and else executes the decoded command. -/
theorem stepRunsTheDecodedCommand : Obligations.StepRunsTheDecodedCommand := by
  unfold Obligations.StepRunsTheDecodedCommand
  intro s d rest i hs hhigh hdec
  have hd : decodeData d = .legal i := (decodeData_of_high_zero hhigh).trans hdec
  rw [← registersRead_command hs hd]
  constructor
  · intro hspec
    exact step_command hs hd (readsOnlySpecified_iff.mpr hspec)
  · intro r hr ho
    exact step_fault_of_unspecified hr ho

/-- Settles O8: the next state is `writeReg` of the state with the operation taken. -/
theorem hostWriteSetsTheRegister : Obligations.HostWriteSetsTheRegister := by
  unfold Obligations.HostWriteSetsTheRegister
  intro s a d rest r hs ha
  refine ⟨_, step_hwrite_of_register hs ha, by simp [readReg_writeReg], ?mark, fun operand => ?reads,
    fun q hq => ⟨?others, ?origins⟩, rfl, rfl, rfl, rfl, rfl, rfl⟩
  case mark => simp [isWritten_writeReg]
  case reads => rw [readSource_of_written (by simp [isWritten_writeReg]), readReg_writeReg, if_pos rfl]
  case others => exact (readReg_writeReg ..).trans (if_neg hq)
  case origins => exact (originOf_writeReg ..).trans (if_neg hq)

/-- Settles O9, address by address; at an operand register by whether a reset event has left it unspecified. -/
theorem hostReadReturnsWithoutSideEffect : Obligations.HostReadReturnsWithoutSideEffect := by
  unfold Obligations.HostReadReturnsWithoutSideEffect
  intro s a rest hs
  refine ⟨fun r ha ho => ?register, fun r ha ho => step_hread_of_unspecified hs ha ho,
    fun ha => ?lastCmd, fun ha => ?status⟩
  case register =>
    rw [step_hread_of_specified hs ha ho, ← readFaultsAfter_of_one_read (registersRead_hread hs ha)]
    rfl
  case lastCmd =>
    obtain rfl : a = 0x8#4 := BitVec.eq_of_toNat_eq ha
    exact step_hread_of_not_register hs (by decide)
  case status =>
    obtain rfl : a = 0x9#4 := BitVec.eq_of_toNat_eq ha
    exact step_hread_of_not_register hs (by decide)

/-- Settles O10: such an address decodes to no register and not to CMD, so a read and a write only flag HADR. -/
theorem reservedAddressFlagsHadr : Obligations.ReservedAddressFlagsHadr := by
  unfold Obligations.ReservedAddressFlagsHadr
  intro s a rest ha
  have hp : portSlot a = .reserved := portSlot_of_ten_le ha
  constructor
  · intro hs
    rw [step_hread_of_not_register hs (by simp [hp]), hp]
    rfl
  · intro d hs
    rw [step_hwrite_of_not_command hs (by simp [hp]), hp]
    rfl

/-- Settles O11: address 0x9 decodes to STATUS, where a write is `clearStatus`. -/
theorem statusWriteClearsOnes : Obligations.StatusWriteClearsOnes := by
  unfold Obligations.StatusWriteClearsOnes
  intro s d rest hs
  exact step_hwrite_of_not_command hs (by decide)

end Sys2Proof.Machine
end

section
/-! The encoding: a word decodes to a command exactly when its fields are those of the command, and exactly when it
matches the command's row of the opcode table (30_encoding.md R60 to R69). -/

namespace Sys2Proof

open Machine

/-! A command built from a row and register numbers, taken apart again. -/

@[simp] theorem mnemonicOf_instrOf (m : Mnemonic) (rd rs1 rs2 rs3 : Reg) :
    mnemonicOf (instrOf m rd rs1 rs2 rs3) = m := by
  cases m <;> rfl

@[simp] theorem destOf_instrOf (m : Mnemonic) (rd rs1 rs2 rs3 : Reg) :
    destOf (instrOf m rd rs1 rs2 rs3) = rd := by
  cases m <;> rfl

/-- A row takes as many of the source registers as its format has (30_encoding.md R61). -/
theorem sourcesOf_instrOf (m : Mnemonic) (rd rs1 rs2 rs3 : Reg) :
    sourcesOf (instrOf m rd rs1 rs2 rs3) =
      match formatOf m with
      | .r1 => [rs1]
      | .r2 => [rs1, rs2]
      | .r3 => [rs1, rs2, rs3] := by
  cases m <;> rfl

/-- A command is what its row makes of its fields. -/
theorem instrOf_fieldsOf (i : Instr) :
    instrOf (mnemonicOf i) (regOfBits (fieldsOf i).rd) (regOfBits (fieldsOf i).rs1)
      (regOfBits (fieldsOf i).rs2) (regOfBits (fieldsOf i).rs3) = i := by
  cases i <;> simp [instrOf, mnemonicOf, fieldsOf, sourceField, sourcesOf, destOf, regOfBits_regBits]

/-- The fields a row's format uses are kept, and those it does not use are 0. -/
theorem fieldsOf_instrOf {c : Command} {m : Mnemonic} (hfn : c.fn = fnOf m) (hinv : c.inv = invOf m)
    (hreserved : reservedZero c = true) (hunused : unusedZero (formatOf m) c = true) :
    fieldsOf (instrOf m (regOfBits c.rd) (regOfBits c.rs1) (regOfBits c.rs2) (regOfBits c.rs3)) = c := by
  obtain ⟨reserved, rs3, rs2, rs1, rd, inv, fn⟩ := c
  cases hf : formatOf m <;>
    simp_all [fieldsOf, sourceField, sourcesOf_instrOf, regBits_regOfBits, reservedZero, unusedZero]

/-! The decoder. -/

/-- Every command's fields are legal, constructor by constructor (30_encoding.md R61, R65). -/
theorem wellFormed_instr : ∀ i : Instr, wellFormed i = true
  | .popcnt rd rs1 => (Laws.LegalFields.popcnt rd rs1).1
  | .popcnt0 rd rs1 => (Laws.LegalFields.popcnt0 rd rs1).1
  | .pcntlo rd rs1 rs2 => (Laws.LegalFields.pcntlo rd rs1 rs2).1
  | .pcntlo0 rd rs1 rs2 => (Laws.LegalFields.pcntlo0 rd rs1 rs2).1
  | .selw rd rs1 rs2 rs3 => (Laws.LegalFields.selw rd rs1 rs2 rs3).1
  | .selw0 rd rs1 rs2 rs3 => (Laws.LegalFields.selw0 rd rs1 rs2 rs3).1
  | .seltab rd rs1 rs2 => (Laws.LegalFields.seltab rd rs1 rs2).1
  | .lblk rd rs1 => (Laws.LegalFields.lblk rd rs1).1
  | .sblk rd rs1 => (Laws.LegalFields.sblk rd rs1).1
  | .soff rd rs1 => (Laws.LegalFields.soff rd rs1).1
  | .phase rd rs1 => (Laws.LegalFields.phase rd rs1).1
  | .relget rd rs1 rs2 => (Laws.LegalFields.relget rd rs1 rs2).1
  | .relget0 rd rs1 rs2 => (Laws.LegalFields.relget0 rd rs1 rs2).1
  | .relset rd rs1 rs2 rs3 => (Laws.LegalFields.relset rd rs1 rs2 rs3).1
  | .subblk rd rs1 rs2 => (Laws.LegalFields.subblk rd rs1 rs2).1
  | .subblk0 rd rs1 rs2 => (Laws.LegalFields.subblk0 rd rs1 rs2).1
  | .absget rd rs1 => (Laws.LegalFields.absget rd rs1).1
  | .absget0 rd rs1 rs2 => (Laws.LegalFields.absget0 rd rs1 rs2).1
  | .add rd rs1 rs2 => (Laws.LegalFields.add rd rs1 rs2).1
  | .sub rd rs1 rs2 => (Laws.LegalFields.sub rd rs1 rs2).1

/-- The row found under a command's `fn` and `inv` is the command's. -/
@[simp] theorem mnemonicAt_fieldsOf (i : Instr) :
    mnemonicAt (fieldsOf i).fn (fieldsOf i).inv = some (mnemonicOf i) :=
  mnemonicAt_fnOf (mnemonicOf i)

/-- The register fields that a command's format does not use are 0 (30_encoding.md R61). -/
theorem unusedZero_fieldsOf (i : Instr) :
    unusedZero (formatOf (mnemonicOf i)) (fieldsOf i) = true := by
  have hwf : fieldsWellFormed (fieldsOf i) = true := wellFormed_instr i
  simp only [fieldsWellFormed, unusedFieldsZero, mnemonicAt_fieldsOf, Bool.and_eq_true] at hwf
  exact hwf.2

/-- Fields decode to a command exactly when they are the fields of it. -/
theorem decodeFields_eq_legal_iff {c : Command} {i : Instr} :
    decodeFields c = .legal i ↔ c = fieldsOf i := by
  constructor
  · intro h
    unfold decodeFields at h
    split at h
    · cases h
    next hreserved =>
      split at h
      · cases h
      next m hm =>
        split at h
        · cases h
        next hunused =>
          obtain ⟨hfn, hinv⟩ := fnOf_of_mnemonicAt hm
          cases h
          exact (fieldsOf_instrOf hfn.symm hinv.symm (by simpa using hreserved)
            (by simpa using hunused)).symm
  · rintro rfl
    have hreserved : reservedZero (fieldsOf i) = true := rfl
    simp [decodeFields, hreserved, unusedZero_fieldsOf, instrOf_fieldsOf]

theorem decode_eq_legal_iff_fields {w : Cmd} {i : Instr} :
    decode w = .legal i ↔ splitWord w = fieldsOf i :=
  decodeFields_eq_legal_iff

/-- A command has one word, and that word alone decodes to it. -/
theorem decode_eq_legal_iff {w : Cmd} {i : Instr} : decode w = .legal i ↔ encode i = w := by
  rw [decode_eq_legal_iff_fields]
  constructor
  · intro h
    rw [encode, ← h, joinWord_splitWord]
  · rintro rfl
    exact splitWord_joinWord (fieldsOf i)

/-- Settles O2: the fields of a command split off its word again and decode to the command. -/
theorem decodeInvertsEncode : Obligations.DecodeInvertsEncode := by
  unfold Obligations.DecodeInvertsEncode
  intro i
  exact ⟨wellFormed_instr i, decode_eq_legal_iff.mpr rfl⟩

/-- Settles O3: a word that decodes to a command has its fields, and a word is the join of its fields. -/
theorem encodeInvertsDecode : Obligations.EncodeInvertsDecode := by
  unfold Obligations.EncodeInvertsDecode
  intro w i h
  exact decode_eq_legal_iff.mp h

/-- Settles O1: for each of the seven rows, that the command's word is the table's says both halves. -/
theorem specWordsDecode : Obligations.SpecWordsDecode := by
  unfold Obligations.SpecWordsDecode
  simp only [decode_eq_legal_iff, and_self]
  decide

/-! The rows of the opcode table. -/

/-- The rows are the mnemonics, each with its match value and its mask. -/
theorem tableRows_eq_map : tableRows = allMnemonics.map fun m => (m, matchOf m, maskOf m) := rfl

theorem mem_tableRows_iff {row : Mnemonic × Cmd × Cmd} :
    row ∈ tableRows ↔ row = (row.1, matchOf row.1, maskOf row.1) := by
  have hall : ∀ m, m ∈ allMnemonics := by intro m; cases m <;> decide
  rw [tableRows_eq_map, List.mem_map]
  exact ⟨by rintro ⟨m, -, rfl⟩; rfl, fun h => ⟨row.1, hall _, h.symm⟩⟩

theorem splitWord_inj {w v : Cmd} : splitWord w = splitWord v ↔ w = v :=
  ⟨fun h => by rw [← joinWord_splitWord w, h, joinWord_splitWord], congrArg splitWord⟩

/-- The mask of a format keeps `fn`, `inv`, the reserved bits and the fields the format does not use
(30_encoding.md R61). -/
theorem splitWord_formatMask (f : Format) :
    splitWord (formatMask f) =
      { reserved := .allOnes 12
        rs3 := if f = .r3 then 0#3 else .allOnes 3
        rs2 := if f = .r1 then .allOnes 3 else 0#3
        rs1 := 0#3
        rd := 0#3
        inv := .allOnes 1
        fn := .allOnes 7 } := by
  cases f <;> decide

theorem splitWord_matchOf (m : Mnemonic) :
    splitWord (matchOf m) =
      { reserved := 0#12, rs3 := 0#3, rs2 := 0#3, rs1 := 0#3, rd := 0#3
        inv := invOf m
        fn := fnOf m } := by
  cases m <;> decide

/-- A word matches a row exactly when it has the row's `fn` and `inv` and the reserved bits and the fields the row's
format does not use are 0. -/
theorem matches_row_iff {w : Cmd} {m : Mnemonic} :
    w &&& maskOf m = matchOf m ↔
      (splitWord w).fn = fnOf m ∧ (splitWord w).inv = invOf m ∧
        reservedZero (splitWord w) = true ∧ unusedZero (formatOf m) (splitWord w) = true := by
  rw [← splitWord_inj, splitWord_and, maskOf, splitWord_formatMask, splitWord_matchOf]
  cases formatOf m <;> simp [-BitVec.reduceAllOnes, reservedZero, unusedZero] <;> tauto

/-- A word matches a row exactly when it decodes to a command of the row. -/
theorem matches_row_iff_decode {w : Cmd} {m : Mnemonic} :
    w &&& maskOf m = matchOf m ↔ ∃ i, decode w = .legal i ∧ mnemonicOf i = m := by
  simp only [matches_row_iff, decode_eq_legal_iff_fields]
  constructor
  · rintro ⟨hfn, hinv, hreserved, hunused⟩
    exact ⟨_, (fieldsOf_instrOf hfn hinv hreserved hunused).symm, mnemonicOf_instrOf ..⟩
  · rintro ⟨i, h, rfl⟩
    rw [h]
    exact ⟨rfl, rfl, rfl, unusedZero_fieldsOf i⟩

/-- Settles O4: matching a row is decoding to a command of it, and a word decodes to one command at most. -/
theorem legalWordsAreTheTableRows : Obligations.LegalWordsAreTheTableRows := by
  unfold Obligations.LegalWordsAreTheTableRows
  intro w
  have decodes : ∀ row ∈ tableRows, w &&& row.2.2 = row.2.1 →
      ∃ i, decode w = .legal i ∧ mnemonicOf i = row.1 := by
    intro row hrow hmatch
    rw [mem_tableRows_iff.mp hrow] at hmatch
    exact matches_row_iff_decode.mp hmatch
  refine ⟨fun i h => ?_, decodes, fun row hrow row' hrow' hm hm' => ?_⟩
  · exact ⟨(mnemonicOf i, matchOf _, maskOf _), mem_tableRows_iff.mpr rfl, rfl,
      matches_row_iff_decode.mpr ⟨i, h, rfl⟩⟩
  · obtain ⟨i, hi, hmn⟩ := decodes row hrow hm
    obtain ⟨i', hi', hmn'⟩ := decodes row' hrow' hm'
    have hsame : row.1 = row'.1 := by
      rw [← hmn, ← hmn', Decoded.legal.inj (hi.symm.trans hi')]
    rw [mem_tableRows_iff.mp hrow, mem_tableRows_iff.mp hrow', hsame]

/-! The illegal words of 30_encoding.md R66, each by a field that no command has. -/

section Legal

variable {w : Cmd} {i : Instr}

theorem reserved_of_decode (h : decode w = .legal i) : w.extractLsb' 20 12 = 0#12 :=
  congrArg Command.reserved (decode_eq_legal_iff_fields.mp h)

theorem fn_of_decode (h : decode w = .legal i) : w.extractLsb' 0 7 = fnOf (mnemonicOf i) :=
  congrArg Command.fn (decode_eq_legal_iff_fields.mp h)

theorem inv_of_decode (h : decode w = .legal i) : w.getLsbD 7 = (invOf (mnemonicOf i)).getLsbD 0 := by
  have hinv : w.extractLsb' 7 1 = invOf (mnemonicOf i) :=
    congrArg Command.inv (decode_eq_legal_iff_fields.mp h)
  rw [← hinv]
  simp

theorem unusedZero_of_decode (h : decode w = .legal i) :
    unusedZero (formatOf (mnemonicOf i)) (splitWord w) = true :=
  decode_eq_legal_iff_fields.mp h ▸ unusedZero_fieldsOf i

/-- Only the format `r3` uses the field `rs3`. -/
theorem format_of_rs3 (h : decode w = .legal i) (hrs3 : w.extractLsb' 17 3 ≠ 0#3) :
    formatOf (mnemonicOf i) = .r3 := by
  have hunused := unusedZero_of_decode h
  cases hf : formatOf (mnemonicOf i) <;> simp_all [unusedZero, splitWord]

/-- The format `r1` does not use the field `rs2`. -/
theorem format_of_rs2 (h : decode w = .legal i) (hrs2 : w.extractLsb' 14 3 ≠ 0#3) :
    formatOf (mnemonicOf i) ≠ .r1 := by
  intro hf
  have hunused := unusedZero_of_decode h
  simp_all [unusedZero, splitWord]

end Legal

/-! What the opcode map assigns (30_encoding.md R63). -/

theorem fnOf_assigned (m : Mnemonic) :
    ¬ ((fnOf m).toNat = 0 ∨ (0x05 ≤ (fnOf m).toNat ∧ (fnOf m).toNat ≤ 0x0F) ∨
      (0x18 ≤ (fnOf m).toNat ∧ (fnOf m).toNat ≤ 0x1F) ∨
      (0x22 ≤ (fnOf m).toNat ∧ (fnOf m).toNat ≤ 0x7F)) := by
  cases m <;> decide

theorem fnOf_of_zero_form {m : Mnemonic} (h : (invOf m).getLsbD 0 = true) :
    (fnOf m).toNat ∉ [0x04, 0x10, 0x11, 0x12, 0x13, 0x15, 0x20, 0x21] := by
  revert h; cases m <;> decide

theorem fnOf_of_r3 {m : Mnemonic} (h : formatOf m = .r3) : (fnOf m).toNat ∈ [0x03, 0x15] := by
  revert h; cases m <;> decide

theorem format_r1_of_fnOf {m : Mnemonic}
    (h : (fnOf m).toNat ∈ [0x01, 0x10, 0x11, 0x12, 0x13] ∨
      ((fnOf m).toNat = 0x17 ∧ (invOf m).getLsbD 0 = false)) : formatOf m = .r1 := by
  revert h; cases m <;> decide

/-- Settles O5: in each clause the word would have a field that no row of the opcode map allows. -/
theorem reservedEncodingsAreIllegal : Obligations.ReservedEncodingsAreIllegal := by
  unfold Obligations.ReservedEncodingsAreIllegal
  intro w i
  refine ⟨fun hres h => ?reserved, fun hfn h => ?number, fun hinv hfn h => ?zeroForm,
    fun hrs3 hfn h => ?rs3, fun hrs2 hfn h => ?rs2⟩
  case reserved => exact hres (reserved_of_decode h)
  case number =>
    rw [fn_of_decode h] at hfn
    exact fnOf_assigned _ hfn
  case zeroForm =>
    rw [fn_of_decode h] at hfn
    rw [inv_of_decode h] at hinv
    exact fnOf_of_zero_form hinv hfn
  case rs3 =>
    rw [fn_of_decode h] at hfn
    exact hfn (fnOf_of_r3 (format_of_rs3 h hrs3))
  case rs2 =>
    rw [fn_of_decode h, inv_of_decode h] at hfn
    exact format_of_rs2 h hrs2 (format_r1_of_fnOf hfn)

end Sys2Proof
end

section
/-! A command's result and its new conditions come from its sources alone (30_encoding.md R70). -/

namespace Sys2Proof.Machine

/-- Flagging conditions ORs into STATUS bits that do not depend on it. -/
theorem statusWith_eq_or (cs : List Condition) (st : BitVec 4) :
    statusWith cs st = st ||| statusWith cs 0#4 := by
  induction cs generalizing st with
  | nil => simp
  | cons c cs ih =>
    calc statusWith (c :: cs) st
        = (st ||| conditionMask c) ||| statusWith cs 0#4 := ih _
      _ = st ||| (conditionMask c ||| statusWith cs 0#4) := BitVec.or_assoc ..
      _ = st ||| ((0#4 ||| conditionMask c) ||| statusWith cs 0#4) := by rw [BitVec.zero_or]
      _ = st ||| statusWith (c :: cs) 0#4 := congrArg (st ||| ·) (ih _).symm

/-- Settles O26: both states commit the same value to the same register and flag the same conditions. -/
theorem onlySourcesMatter : Obligations.OnlySourcesMatter := by
  unfold Obligations.OnlySourcesMatter
  intro i s s' hsources hdraws
  obtain ⟨v, cs, e, e'⟩ := exec_same_commit hsources hdraws
  refine ⟨_, _, statusWith cs 0#4, e, e', ?value, ?status, ?status'⟩
  case value => simp [readReg_commit]
  case status => rw [commit_status, statusWith_eq_or]
  case status' => rw [commit_status, statusWith_eq_or]

end Sys2Proof.Machine
end

section
/-! The word of a command, as the sum of its row's match value and its register numbers (30_encoding.md R60, R74). -/

namespace Sys2Proof

open Machine

/-- The number of the `n`-th source register, 0 where the format does not use it (30_encoding.md R61). -/
def sourceNumber (i : Instr) (n : Nat) : Nat := ((sourcesOf i)[n]?.map Fin.val).getD 0

theorem sourceField_toNat (i : Instr) (n : Nat) : (sourceField i n).toNat = sourceNumber i n := by
  unfold sourceField sourceNumber
  cases (sourcesOf i)[n]? with
  | none => rfl
  | some r => exact regBits_toNat r

/-- Every command's word is its row's match value, `fn` with the `inv` bit above it (30_encoding.md R63), with its
register numbers in their fields. For a given constructor both compute. -/
theorem encodedAs_commandWord (i : Instr) :
    EncodedAs i (commandWord ((fnOf (mnemonicOf i)).toNat + 2 ^ 7 * (invOf (mnemonicOf i)).toNat)
      (destOf i).val (sourceNumber i 0) (sourceNumber i 1) (sourceNumber i 2)) := by
  refine ⟨?_, decode_eq_legal_iff.mpr rfl⟩
  simp only [encode_toNat, fieldsOf, sourceField_toNat, regBits_toNat, commandWord]
  omega

end Sys2Proof
end

section
/-! The population-count family: a destination holds the number of bits that the command counts, as no count reaches
2^64 (41_popcount.md R80 to R84). -/

namespace Sys2Proof.Machine

/-- A count of a word's bits fits a register. -/
theorem zext_popcount_toNat (v : Word) : (zext (popcount v)).toNat = popcount v :=
  zext_toNat (Nat.lt_of_le_of_lt (popcountBelow_le v 64) (by decide))

/-- Settles O28: `popcount` is the count of 1 bits. -/
theorem popcntCountsOnes : Obligations.PopcntCountsOnes := by
  unfold Obligations.PopcntCountsOnes
  intro rd rs1 s
  refine ⟨encodedAs_commandWord (.popcnt rd rs1), completes_of_commit rfl ?_⟩
  rw [zext_popcount_toNat, popcount_eq_onesBelow]

/-- Settles O29: the 1 bits of the complement are the 0 bits, and each of the 64 bits is 1 or 0. -/
theorem popcntZeroCountsZeros : Obligations.PopcntZeroCountsZeros := by
  unfold Obligations.PopcntZeroCountsZeros
  intro rd rs1 s
  refine ⟨encodedAs_commandWord (.popcnt0 rd rs1), completes_of_commit rfl ?_⟩
  rw [zext_popcount_toNat, popcount_eq_onesBelow, onesBelow_not _ 64 (Nat.le_refl 64)]
  exact ⟨rfl, (Nat.add_comm ..).trans (onesBelow_add_zerosBelow ..)⟩

/-- The bits that the mask of an offset keeps are those below `b` mod 64. -/
theorem popcount_and_mask_bitOffset (v b : Word) :
    popcount (v &&& mask (bitOffset b)) = onesBelow v (b.toNat % 64) := by
  rw [bitOffset_eq_mod, popcount_and_mask v _ (Nat.mod_lt _ (by decide)).le]

/-- Settles O30: the mask of the offset leaves the 1 bits below it. -/
theorem pcntloCountsOnesBelowTheOffset : Obligations.PcntloCountsOnesBelowTheOffset := by
  unfold Obligations.PcntloCountsOnesBelowTheOffset
  intro rd rs1 rs2 s
  refine ⟨encodedAs_commandWord (.pcntlo rd rs1 rs2), completes_of_commit rfl ?_⟩
  rw [zext_popcount_toNat, popcount_and_mask_bitOffset]

/-- Settles O31: as for the 1 bits, on the complement; below the offset, too, each bit is 1 or 0. -/
theorem pcntloZeroCountsZerosBelowTheOffset : Obligations.PcntloZeroCountsZerosBelowTheOffset := by
  unfold Obligations.PcntloZeroCountsZerosBelowTheOffset
  intro rd rs1 rs2 s
  refine ⟨encodedAs_commandWord (.pcntlo0 rd rs1 rs2), completes_of_commit rfl ?_⟩
  rw [zext_popcount_toNat, popcount_and_mask_bitOffset,
    onesBelow_not _ _ (Nat.mod_lt _ (by decide)).le]
  exact ⟨rfl, (Nat.add_comm ..).trans (onesBelow_add_zerosBelow ..)⟩

end Sys2Proof.Machine
end

section
/-! Counting the bits of a slice of a word, and where the `k`-th 1 bit stands. -/

namespace Sys2Proof.Machine

theorem popcountBelow_eq_onesBelow (v : Word) (n : Nat) : popcountBelow v n = onesBelow v n :=
  popcountBelow_eq_countP v n

theorem popcountBelow_mono {w : Nat} (v : BitVec w) {m n : Nat} (h : m ≤ n) :
    popcountBelow v m ≤ popcountBelow v n := by
  induction n, h using Nat.le_induction with
  | base => rfl
  | succ n _ ih => exact ih.trans (Nat.le_add_right ..)

/-- Counting on from bit `p`, in the slice that starts there. -/
theorem popcountBelow_add {w : Nat} (v : BitVec w) (p : Nat) {n l : Nat} (h : n ≤ l) :
    popcountBelow v (p + n) = popcountBelow v p + popcountBelow (v.extractLsb' p l) n := by
  induction n with
  | zero => rfl
  | succ n ih =>
    have hbit : (v.extractLsb' p l).getLsbD n = v.getLsbD (p + n) := by
      simp [Nat.lt_of_succ_le h]
    rw [← Nat.add_assoc, popcountBelow, popcountBelow, ih (Nat.le_of_succ_le h), hbit, Nat.add_assoc]

/-- The bits of a slice are those of its two parts. -/
theorem popcount_extractLsb'_add {w : Nat} (v : BitVec w) (p m n : Nat) :
    popcount (v.extractLsb' p (m + n)) =
      popcount (v.extractLsb' p m) + popcount (v.extractLsb' (p + m) n) := by
  have hwhole := popcountBelow_add v p (Nat.le_refl (m + n))
  have hlow := popcountBelow_add v p (Nat.le_refl m)
  have hhigh := popcountBelow_add v (p + m) (Nat.le_refl n)
  unfold popcount
  rw [← Nat.add_assoc] at hwhole
  omega

theorem onesBelow_shiftRight (x : Word) (p n : Nat) :
    onesBelow (x >>> p) n = popcount (x.extractLsb' p n) := by
  unfold popcount onesBelow
  rw [popcountBelow_eq_countP]
  exact List.countP_congr fun i hi => by
    simp [List.mem_range.mp hi]

/-- Counting on over byte `j`. -/
theorem onesBelow_byte_add (x : Word) (j : Nat) {m : Nat} (hm : m ≤ 8) :
    onesBelow x (8 * j + m) = onesBelow x (8 * j) + popcountBelow (byteLane x j) m := by
  rw [← popcountBelow_eq_onesBelow, ← popcountBelow_eq_onesBelow]
  exact popcountBelow_add x (8 * j) hm

/-- Where more than `k` bits are 1, one of them has exactly `k` below it. -/
theorem exists_kth_one {w : Nat} (v : BitVec w) {k n : Nat} (h : k < popcountBelow v n) :
    ∃ m < n, v.getLsbD m = true ∧ popcountBelow v m = k := by
  induction n with
  | zero => exact absurd h (Nat.not_lt_zero k)
  | succ n ih =>
    by_cases hk : k < popcountBelow v n
    · obtain ⟨m, hm, hkth⟩ := ih hk
      exact ⟨m, Nat.lt_succ_of_lt hm, hkth⟩
    · rw [popcountBelow] at h
      cases hbit : v.getLsbD n with
      | false => simp [hbit] at h; omega
      | true => exact ⟨n, Nat.lt_succ_self n, hbit, by simp [hbit] at h; omega⟩

end Sys2Proof.Machine
end

section
/-! Step 1 of the select engine: each SWAR step adds neighbouring lanes, so that lanes twice as wide hold the counts of
their bits (42_select_in_word.md R86). -/

namespace Sys2Proof.Machine

/-- The parts of two numbers below lane `j` add up without a carry into it. -/
theorem mod_add_mod_lt_of_lanes {w x y j : Nat}
    (h : ∀ i < j, x / 2 ^ (w * i) % 2 ^ w + y / 2 ^ (w * i) % 2 ^ w < 2 ^ w) :
    x % 2 ^ (w * j) + y % 2 ^ (w * j) < 2 ^ (w * j) := by
  induction j with
  | zero => simp [Nat.mod_one]
  | succ j ih =>
    have hlow := ih fun i hi => h i (Nat.lt_succ_of_lt hi)
    have hlane := h j (Nat.lt_succ_self j)
    have hscaled := Nat.mul_le_mul_left (2 ^ (w * j)) (Nat.succ_le_of_lt hlane)
    rw [Nat.succ_eq_add_one, Nat.mul_add, Nat.mul_add] at hscaled
    rw [Nat.mul_succ, pow_add, Nat.mod_mul, Nat.mod_mul]
    omega

/-- Lane `j` of a sum is the sum of the lanes `j` where no lane up to it carries. -/
theorem toNat_lane_add {w j : Nat} (x y : Word) (hj : w * j + w ≤ 64)
    (h : ∀ i ≤ j, (x.extractLsb' (w * i) w).toNat + (y.extractLsb' (w * i) w).toNat < 2 ^ w) :
    ((x + y).extractLsb' (w * j) w).toNat =
      (x.extractLsb' (w * j) w).toNat + (y.extractLsb' (w * j) w).toNat := by
  simp only [BitVec.extractLsb'_toNat, Nat.shiftRight_eq_div_pow] at h ⊢
  have hcarry := mod_add_mod_lt_of_lanes fun i hi => h i (Nat.le_of_lt hi)
  have hwrap : 2 ^ 64 = 2 ^ (w * j) * (2 ^ w * 2 ^ (64 - (w * j + w))) := by
    rw [← pow_add, ← pow_add]
    congr 1
    omega
  rw [BitVec.toNat_add, hwrap, Nat.mod_mul_right_div_self, Nat.mod_mul_right_mod,
    Nat.add_div_eq_of_add_mod_lt hcarry, Nat.add_mod, Nat.mod_eq_of_lt (h j le_rfl)]

/-- The mask that keeps the low half, of `n` bits, of each lane of `2 n`. -/
def IsLowHalvesMask (n : Nat) (M : Word) : Prop :=
  ∀ i < 64, M.getLsbD i = decide (i % (2 * n) < n)

/-- What such a mask keeps of a lane is the slice that its low half holds. -/
theorem toNat_lane_and {n : Nat} {M : Word} (hM : IsLowHalvesMask n M) (v : Word) {j : Nat}
    (hj : 2 * n * j + 2 * n ≤ 64) :
    ((v &&& M).extractLsb' (2 * n * j) (2 * n)).toNat = (v.extractLsb' (2 * n * j) n).toNat := by
  have hlane : (v &&& M).extractLsb' (2 * n * j) (2 * n) =
      (v.extractLsb' (2 * n * j) n).setWidth (2 * n) := by
    apply BitVec.eq_of_getLsbD_eq
    intro i hi
    have hmask := hM (2 * n * j + i) (by omega)
    rw [Nat.mul_add_mod, Nat.mod_eq_of_lt hi] at hmask
    simp [BitVec.getLsbD_extractLsb', hi, hmask, Bool.and_comm]
  rw [hlane, BitVec.toNat_setWidth_of_le (by omega)]

theorem extractLsb'_shiftRight (v : Word) (n p l : Nat) :
    (v >>> n).extractLsb' p l = v.extractLsb' (p + n) l := by
  apply BitVec.eq_of_getLsbD_eq
  intro i hi
  simp [hi]
  congr 1
  omega

/-- Each lane of `n` bits of `s` holds the number of 1 bits that `x` has there. -/
def LanesCount (n : Nat) (s x : Word) : Prop :=
  ∀ i, n * i + n ≤ 64 → (s.extractLsb' (n * i) n).toNat = popcount (x.extractLsb' (n * i) n)

/-- Two neighbouring lanes hold together the count of the lane that they make up. -/
theorem LanesCount.add_neighbours {n : Nat} {s x : Word} (hs : LanesCount n s x) {j : Nat}
    (hj : 2 * n * j + 2 * n ≤ 64) :
    (s.extractLsb' (2 * n * j) n).toNat + (s.extractLsb' (2 * n * j + n) n).toNat =
      popcount (x.extractLsb' (2 * n * j) (2 * n)) := by
  have hlow : 2 * n * j = n * (2 * j) := by ring
  have hhigh : n * (2 * j) + n = n * (2 * j + 1) := by ring
  have hcount := popcount_extractLsb'_add x (n * (2 * j)) n n
  rw [← Nat.two_mul] at hcount
  rw [hlow, hcount, hs (2 * j) (by rw [← hlow]; omega), hhigh,
    hs (2 * j + 1) (by rw [← hhigh, ← hlow]; omega)]

/-- Adding the low halves of all lanes to their high halves doubles the width of the lanes that count. -/
theorem LanesCount.double {n : Nat} {s x M : Word} (hs : LanesCount n s x)
    (hM : IsLowHalvesMask n M) (hn : 0 < n) :
    LanesCount (2 * n) ((s &&& M) + ((s >>> n) &&& M)) x := by
  intro j hj
  have hfits : ∀ a b : BitVec n, a.toNat + b.toNat < 2 ^ (2 * n) := fun a b =>
    calc a.toNat + b.toNat < 2 ^ n + 2 ^ n := Nat.add_lt_add a.isLt b.isLt
      _ = 2 ^ (n + 1) := (Nat.two_pow_succ n).symm
      _ ≤ 2 ^ (2 * n) := Nat.pow_le_pow_right (by decide) (by omega)
  have hlanes : ∀ i ≤ j, 2 * n * i + 2 * n ≤ 64 := by
    intro i hi
    have := Nat.mul_le_mul_left (2 * n) hi
    omega
  rw [toNat_lane_add _ _ hj, toNat_lane_and hM _ hj, toNat_lane_and hM _ hj, extractLsb'_shiftRight,
    hs.add_neighbours hj]
  intro i hi
  rw [toNat_lane_and hM _ (hlanes i hi), toNat_lane_and hM _ (hlanes i hi)]
  exact hfits _ _

theorem isLowHalvesMask_one : IsLowHalvesMask 1 0x5555555555555555#64 := by
  unfold IsLowHalvesMask; decide

theorem isLowHalvesMask_two : IsLowHalvesMask 2 0x3333333333333333#64 := by
  unfold IsLowHalvesMask; decide

theorem isLowHalvesMask_four : IsLowHalvesMask 4 0x0F0F0F0F0F0F0F0F#64 := by
  unfold IsLowHalvesMask; decide

/-- Bit `i` of the odd bits, moved down and back up, is bit `i` of the word where `i` is odd. -/
theorem getLsbD_oddBits (x : Word) {i : Nat} (hi : i < 64) :
    (((x >>> 1) &&& 0x5555555555555555#64) <<< 1).getLsbD i = (x.getLsbD i && decide (i % 2 = 1)) := by
  cases i with
  | zero => simp
  | succ i =>
    have hparity : i % (2 * 1) < 1 ↔ (i + 1) % 2 = 1 := by omega
    have hmask : (0x5555555555555555#64).getLsbD i = decide ((i + 1) % 2 = 1) :=
      (isLowHalvesMask_one i (Nat.lt_of_succ_lt hi)).trans (decide_eq_decide.mpr hparity)
    rw [BitVec.getLsbD_shiftLeft, BitVec.getLsbD_and, BitVec.getLsbD_ushiftRight,
      Nat.add_sub_cancel, hmask]
    simp [hi, Nat.add_comm 1 i]

theorem getLsbD_evenBits (x : Word) {i : Nat} (hi : i < 64) :
    (x &&& 0x5555555555555555#64).getLsbD i = (x.getLsbD i && decide (i % 2 = 0)) := by
  have hparity : i % (2 * 1) < 1 ↔ i % 2 = 0 := by omega
  rw [BitVec.getLsbD_and, isLowHalvesMask_one i hi, decide_eq_decide.mpr hparity]

/-- A word is its even bits plus its odd bits, and the odd bits are twice what they are when moved down. So taking them
off once, moved down, leaves the even bits plus the odd bits moved down. -/
theorem swarHalves_eq (x : Word) :
    swarHalves x = (x &&& 0x5555555555555555#64) + ((x >>> 1) &&& 0x5555555555555555#64) := by
  have htwice : ((x >>> 1) &&& 0x5555555555555555#64) <<< 1 =
      ((x >>> 1) &&& 0x5555555555555555#64) + ((x >>> 1) &&& 0x5555555555555555#64) := by
    rw [BitVec.shiftLeft_eq_mul_twoPow]
    exact BitVec.mul_two
  have hsplit : x = (x &&& 0x5555555555555555#64) +
      ((x >>> 1) &&& 0x5555555555555555#64) <<< 1 := by
    rw [BitVec.add_eq_or_of_and_eq_zero]
    · apply BitVec.eq_of_getLsbD_eq
      intro i hi
      rw [BitVec.getLsbD_or, getLsbD_evenBits x hi, getLsbD_oddBits x hi]
      rcases Nat.mod_two_eq_zero_or_one i with h | h <;> simp [h]
    · apply BitVec.eq_of_getLsbD_eq
      intro i hi
      rw [BitVec.getLsbD_and, getLsbD_evenBits x hi, getLsbD_oddBits x hi]
      rcases Nat.mod_two_eq_zero_or_one i with h | h <;> simp [h]
  rw [htwice, ← BitVec.add_assoc] at hsplit
  exact BitVec.sub_eq_iff_eq_add.mpr hsplit

theorem lanesCount_one (x : Word) : LanesCount 1 x x := by
  have hbit : ∀ b : BitVec 1, b.toNat = popcount b := by decide
  exact fun i _ => hbit _

theorem lanesCount_halves (x : Word) : LanesCount 2 (swarHalves x) x := by
  rw [swarHalves_eq]
  exact (lanesCount_one x).double isLowHalvesMask_one (by decide)

theorem lanesCount_pairs (x : Word) : LanesCount 4 (swarPairs (swarHalves x)) x :=
  (lanesCount_halves x).double isLowHalvesMask_two (by decide)

/-- The third step adds before it masks: a 4-bit lane holds at most 4, so the sum of two does not carry. -/
theorem lanesCount_nibbles (x : Word) :
    LanesCount 8 (swarNibbles (swarPairs (swarHalves x))) x := by
  intro j hj
  have hs := lanesCount_pairs x
  generalize swarPairs (swarHalves x) = s at hs
  have hsmall : ∀ i, 4 * i + 4 ≤ 64 → (s.extractLsb' (4 * i) 4).toNat ≤ 4 := fun i hi =>
    hs i hi ▸ popcountBelow_le _ 4
  have hlane := toNat_lane_add (w := 4) (j := 2 * j) s (s >>> 4) (by omega) fun i hi => by
    have hthis := hsmall i (by omega)
    have hnext := hsmall (i + 1) (by omega)
    rw [extractLsb'_shiftRight]
    exact Nat.lt_of_le_of_lt (Nat.add_le_add hthis hnext) (by decide)
  rw [extractLsb'_shiftRight, ← Nat.mul_assoc] at hlane
  unfold swarNibbles
  rw [toNat_lane_and isLowHalvesMask_four _ hj]
  exact hlane.trans (hs.add_neighbours hj)

/-- After the third step each byte holds the count of its bits. -/
theorem byteLane_swarNibbles (x : Word) {j : Nat} (hj : j < 8) :
    (byteLane (swarNibbles (swarPairs (swarHalves x))) j).toNat = popcount (byteLane x j) :=
  lanesCount_nibbles x j (by omega)

/-- The counts of the bytes `0` to `j - 1` are the count of the bits below byte `j`. -/
theorem sum_popcount_byteLane (x : Word) (j : Nat) :
    ((List.range j).map fun i => popcount (byteLane x i)).sum = onesBelow x (8 * j) := by
  induction j with
  | zero => rfl
  | succ j ih =>
    rw [List.range_succ, List.map_append, List.sum_append, ih, List.map_singleton,
      List.sum_singleton, Nat.mul_succ, onesBelow_byte_add x j (Nat.le_refl 8)]
    rfl

/-- After the multiply byte `j` holds the count of the bytes `0` to `j` (42_select_in_word.md R86). -/
theorem byteLane_prefixCounts (x : Word) {j : Nat} (hj : j < 8) :
    (byteLane (prefixCounts x) j).toNat = onesBelow x (8 * j + 8) := by
  have hsum : ∀ i < 8, ((List.range (i + 1)).map fun l =>
      (byteLane (swarNibbles (swarPairs (swarHalves x))) l).toNat).sum = onesBelow x (8 * i + 8) := by
    intro i hi
    rw [← Nat.mul_succ, ← sum_popcount_byteLane]
    congr 1
    exact List.map_congr_left fun l hl =>
      byteLane_swarNibbles x (by have := List.mem_range.mp hl; omega)
  rw [← hsum j hj]
  refine byteLane_mul_ones _ j hj fun i hi => ?_
  rw [hsum i (by omega)]
  have := onesBelow_le x (8 * i + 8)
  omega

end Sys2Proof.Machine
end

section
/-! Step 2 of the select engine: the comparison of every byte with `k + 1` at once (42_select_in_word.md R86). -/

namespace Sys2Proof.Machine

/-- Every byte of the subtrahend is `k + 1`. -/
theorem byteLane_threshold {k : Word} (hk : k.toNat + 1 ≤ 64) {j : Nat} (hj : j < 8) :
    (byteLane ((k + 1#64) * 0x0101010101010101#64) j).toNat = k.toNat + 1 := by
  have hbyte : ∀ i, (byteLane (k + 1#64) i).toNat = if i = 0 then k.toNat + 1 else 0 := by
    intro i
    have hval : (k + 1#64).toNat = k.toNat + 1 := BitVec.toNat_add_of_lt (by simp; omega)
    rw [byteLane_toNat, hval]
    cases i with
    | zero => rw [digit256_zero, if_pos rfl]; omega
    | succ i =>
      rw [digit256_succ, show (k.toNat + 1) / 256 = 0 by omega, if_neg (Nat.succ_ne_zero i)]
      simp [digit256]
  have hsum : ∀ i, ((List.range (i + 1)).map fun l => (byteLane (k + 1#64) l).toNat).sum =
      k.toNat + 1 := by
    intro i
    simp only [hbyte, List.range_succ_eq_map, List.map_cons, List.sum_cons, List.map_map]
    simp [Function.comp_def]
  rw [byteLane_mul_ones _ j hj fun i _ => by rw [hsum i]; omega, hsum j]

/-- The bits of a word in terms of its bytes, at bit `i` of byte `j`. -/
theorem getLsbD_byte (v : Word) (j : Nat) {i : Nat} (hi : i < 8) :
    v.getLsbD (8 * j + i) = (byteLane v j).getLsbD i := by
  simp [byteLane, hi]

/-- In a byte, the high bit after the comparison says that the byte was at least the threshold: with the high bit
put in, the byte is 128 more than it was, and what is taken off is at most 64. -/
theorem getLsbD_seven_of_comparison {b s t : BitVec 8} (hs : s.toNat ≤ 64) (ht : t.toNat ≤ 64)
    (hb : b.toNat = (s ||| 0x80#8).toNat - t.toNat) : b.getLsbD 7 = true ↔ t.toNat ≤ s.toNat := by
  have hor : (s ||| 0x80#8).toNat = s.toNat + 128 := by
    rw [BitVec.toNat_or, Nat.or_comm, Nat.add_comm]
    exact (Nat.two_pow_add_eq_or_of_lt (i := 7) (by omega) 1).symm
  have hhigh : b.getLsbD 7 = decide (2 ^ 7 ≤ b.toNat) := BitVec.msb_eq_decide b
  rw [hhigh, decide_eq_true_iff]
  omega

/-- The high bit of byte `j` after step 2 says that byte `j` is at least `k + 1`. -/
theorem getLsbD_answerMask_high {s k : Word} (hk : k.toNat + 1 ≤ 64)
    (hs : ∀ j < 8, (byteLane s j).toNat ≤ 64) {j : Nat} (hj : j < 8) :
    (answerMask s k).getLsbD (8 * j + 7) = true ↔ k.toNat + 1 ≤ (byteLane s j).toNat := by
  have hmask : ∀ i < 8, byteLane 0x8080808080808080#64 i = 0x80#8 := by decide
  have hle : ∀ i < 8, (byteLane ((k + 1#64) * 0x0101010101010101#64) i).toNat ≤
      (byteLane (s ||| 0x8080808080808080#64) i).toNat := by
    intro i hi
    rw [byteLane_threshold hk hi, byteLane_or, hmask i hi, BitVec.toNat_or]
    exact (Nat.le_trans hk (by decide)).trans Nat.right_le_or
  have hdiff := byteLane_sub _ _ hle j hj
  rw [byteLane_or, hmask j hj] at hdiff
  have hhigh := getLsbD_seven_of_comparison (hs j hj) (byteLane_threshold hk hj ▸ hk) hdiff
  rw [byteLane_threshold hk hj] at hhigh
  rw [getLsbD_byte _ _ (by decide), answerMask, byteLane_and, hmask j hj, BitVec.getLsbD_and, ← hhigh]
  simp

/-- Step 2 leaves no bit but the high bits of the bytes. -/
theorem getLsbD_answerMask_low (s k : Word) {i : Nat} (hi : i % 8 ≠ 7) :
    (answerMask s k).getLsbD i = false := by
  have hmask : ∀ i < 64, i % 8 ≠ 7 → (0x8080808080808080#64).getLsbD i = false := by decide
  rw [answerMask, BitVec.getLsbD_and]
  by_cases h : i < 64
  · rw [hmask i h hi, Bool.and_false]
  · rw [BitVec.getLsbD_of_ge _ i (Nat.le_of_not_lt h), Bool.false_and]

theorem byteLane_prefixCounts_le (x : Word) {j : Nat} (hj : j < 8) :
    (byteLane (prefixCounts x) j).toNat ≤ 64 := by
  rw [byteLane_prefixCounts x hj]
  exact (onesBelow_le x _).trans (by omega)

/-- Settles O49: the lanes count after each SWAR step, the multiply adds up the bytes, and step 2 compares each. -/
theorem swarLanesCountBits : Obligations.SwarLanesCountBits := by
  unfold Obligations.SwarLanesCountBits
  intro x k
  refine ⟨fun m hm => ?halves, fun m hm => ?pairs, fun j hj => ?nibbles,
    fun j hj => byteLane_prefixCounts x hj, fun hk j hj => ?comparison⟩
  case halves => rw [onesBelow_shiftRight, lanesCount_halves x m (by omega)]
  case pairs => rw [onesBelow_shiftRight, lanesCount_pairs x m (by omega)]
  case nibbles => rw [onesBelow_shiftRight, byteLane_swarNibbles x hj]; rfl
  case comparison =>
    exact getLsbD_answerMask_high hk (fun i hi => byteLane_prefixCounts_le x hi) hj

end Sys2Proof.Machine
end

section
/-! Step 3 of the select engine, and the engine as a whole: it gives the `k`-th 1 bit (42_select_in_word.md R85, R87,
R96). -/

namespace Sys2Proof.Machine

theorem ctz_eq {v : Word} {m : Nat} (hm : v.getLsbD m = true)
    (hbelow : ∀ i < m, v.getLsbD i = false) : ctz v = m := by
  have hfind : (List.range 64).find? (fun i => v.getLsbD i) = some m :=
    List.find?_range_eq_some.mpr
      ⟨hm, List.mem_range.mpr (BitVec.lt_of_getLsbD hm), fun i hi => by simp [hbelow i hi]⟩
  rw [ctz, hfind, Option.getD_some]

/-- Where byte `j` is the first one up to whose end there are more than `k` 1 bits, its high bit is the lowest that
step 2 sets. -/
theorem ctz_answerMask {x k : Word} {j : Nat} (hk : k.toNat < popcount x) (hj : j < 8)
    (hfound : k.toNat < onesBelow x (8 * j + 8))
    (hfirst : ∀ i < j, onesBelow x (8 * i + 8) ≤ k.toNat) :
    ctz (answerMask (prefixCounts x) k) = 8 * j + 7 := by
  have hhigh : ∀ i < 8, (answerMask (prefixCounts x) k).getLsbD (8 * i + 7) = true ↔
      k.toNat < onesBelow x (8 * i + 8) := by
    intro i hi
    rw [getLsbD_answerMask_high (Nat.le_trans hk (popcountBelow_le x 64))
      (fun l hl => byteLane_prefixCounts_le x hl) hi, byteLane_prefixCounts x hi, Nat.succ_le_iff]
  refine ctz_eq ((hhigh j hj).mpr hfound) fun i hi => ?_
  by_cases hi7 : i % 8 = 7
  · have hbyte : i = 8 * (i / 8) + 7 := by omega
    rw [hbyte, ← Bool.not_eq_true, hhigh (i / 8) (by omega)]
    exact Nat.not_lt.mpr (hfirst (i / 8) (by omega))
  · exact getLsbD_answerMask_low _ _ hi7

/-- The `k`-th 1 bit lies in the answer byte. -/
theorem answerByte_prefixCounts {x k : Word} (hk : k.toNat < popcount x) :
    ∃ j < 8, answerByte (prefixCounts x) k = j ∧ onesBelow x (8 * j) ≤ k.toNat ∧
      k.toNat < onesBelow x (8 * j + 8) := by
  have hlast : k.toNat < onesBelow x (8 * 7 + 8) := popcount_eq_onesBelow x ▸ hk
  have hsome : ∃ j, k.toNat < onesBelow x (8 * j + 8) := ⟨7, hlast⟩
  have hj : Nat.find hsome < 8 := Nat.lt_succ_of_le (Nat.find_min' hsome hlast)
  have hfound := Nat.find_spec hsome
  have hfirst : ∀ i < Nat.find hsome, onesBelow x (8 * i + 8) ≤ k.toNat := fun i hi =>
    Nat.le_of_not_lt (Nat.find_min hsome hi)
  generalize Nat.find hsome = j at *
  refine ⟨j, hj, ?_, ?_, hfound⟩
  · rw [answerByte, ctz_answerMask hk hj hfound hfirst, Nat.shiftRight_eq_div_pow]
    omega
  · cases j with
    | zero => exact Nat.zero_le _
    | succ j => exact hfirst j (Nat.lt_succ_self j)

/-- `p` of step 3 is the count of the bits below the answer byte. -/
theorem countBefore_prefixCounts (x : Word) {j : Nat} (hj : j < 8) :
    (countBefore (prefixCounts x) j).toNat = onesBelow x (8 * j) := by
  unfold countBefore
  cases j with
  | zero => rfl
  | succ j =>
    rw [if_neg (Nat.succ_ne_zero j), Nat.add_sub_cancel,
      BitVec.toNat_setWidth_of_le (by decide), byteLane_prefixCounts x (by omega)]
    rfl

/-- A mask of the bits below `r` leaves the count of those. -/
theorem popcountBelow_and {w : Nat} (v : BitVec w) {M : BitVec w} {r n : Nat}
    (hM : ∀ i < n, M.getLsbD i = decide (i < r)) :
    popcountBelow (v &&& M) n = popcountBelow v (min n r) := by
  induction n with
  | zero => rw [Nat.zero_min]; rfl
  | succ n ih =>
    rw [popcountBelow, ih fun i hi => hM i (Nat.lt_succ_of_lt hi), BitVec.getLsbD_and,
      hM n (Nat.lt_succ_self n)]
    by_cases h : n < r
    · rw [Nat.min_eq_left h.le, Nat.min_eq_left (Nat.succ_le_of_lt h), decide_eq_true h,
        Bool.and_true]
      rfl
    · rw [Nat.min_eq_right (Nat.le_of_not_lt h), Nat.min_eq_right (by omega), decide_eq_false h,
        Bool.and_false]
      rfl

/-- A table entry is the first position up to which, itself included, the byte has `i + 1` 1 bits. -/
theorem selectTable_eq (i : Fin 8) (b : BitVec 8) :
    selectTable i b = (Fin.find? fun m : Fin 8 => popcountBelow b (m.val + 1) == i.val + 1).getD 7 := by
  have hcount : ∀ m : Fin 8, popcount (b &&& ((1#8 <<< (m.val + 1)) - 1#8)) =
      popcountBelow b (m.val + 1) := by
    intro m
    have hM : ∀ m : Fin 8, ∀ l < 8,
        ((1#8 <<< (m.val + 1)) - 1#8).getLsbD l = decide (l < m.val + 1) := by decide
    rw [popcount, popcountBelow_and b (hM m), Nat.min_eq_right m.isLt]
  have hall : ([0, 1, 2, 3, 4, 5, 6, 7] : List (Fin 8)) = List.finRange 8 := by decide
  unfold selectTable
  rw [hall, Fin.find?_eq_find?_finRange]
  simp only [hcount]

/-- A byte with more than `i` 1 bits has its `i`-th 1 bit in the table. -/
theorem selectTable_of_lt {i : Fin 8} {b : BitVec 8} (h : i.val < popcount b) :
    b.getLsbD (selectTable i b).val = true ∧ popcountBelow b (selectTable i b).val = i.val := by
  obtain ⟨m, hm, hbit, hbelow⟩ := exists_kth_one b h
  have hfind : Fin.find? (fun m : Fin 8 => popcountBelow b (m.val + 1) == i.val + 1) = some ⟨m, hm⟩ := by
    refine Fin.find?_eq_some_iff.mpr ⟨by simp [popcountBelow, hbelow, hbit], fun j hj => ?_⟩
    have : popcountBelow b (j.val + 1) ≤ i.val := hbelow ▸ popcountBelow_mono b hj
    simp only [beq_eq_false_iff_ne]
    omega
  rw [selectTable_eq, hfind]
  exact ⟨hbit, hbelow⟩

/-- A byte with at most `i` 1 bits has 7 there. -/
theorem selectTable_of_le {i : Fin 8} {b : BitVec 8} (h : popcount b ≤ i.val) :
    selectTable i b = 7 := by
  have hfind : Fin.find? (fun m : Fin 8 => popcountBelow b (m.val + 1) == i.val + 1) = none := by
    refine Fin.find?_eq_none_iff.mpr fun m => ?_
    have : popcountBelow b (m.val + 1) ≤ popcount b := popcountBelow_mono b m.isLt
    simp only [beq_eq_false_iff_ne]
    omega
  rw [selectTable_eq, hfind]
  rfl

/-- The table row of step 3 is the count of the 1 bits between the start of the answer byte and the `k`-th; it is below
8, so that the low three bits of `k2` are all of it. -/
theorem tableIndex_rest {x k : Word} {j : Nat} (hj : j < 8) (hbefore : onesBelow x (8 * j) ≤ k.toNat)
    (hwithin : k.toNat < onesBelow x (8 * j) + popcount (byteLane x j)) :
    (tableIndex (k - countBefore (prefixCounts x) j)).val = k.toNat - onesBelow x (8 * j) := by
  have hcount := countBefore_prefixCounts x hj
  have hsmall : popcount (byteLane x j) ≤ 8 := popcountBelow_le _ 8
  rw [tableIndex_val, BitVec.toNat_sub_of_le (by rw [BitVec.le_def, hcount]; exact hbefore), hcount,
    Nat.mod_eq_of_lt (by omega)]

/-- The engine gives the `k`-th 1 bit, where there is one. -/
theorem isKthOne_selwCore {x k : Word} (hk : k.toNat < popcount x) :
    isKthOne x k.toNat (selwCore x k) := by
  obtain ⟨j, hj, hbyte, hbefore, hwithin⟩ := answerByte_prefixCounts hk
  rw [onesBelow_byte_add x j (Nat.le_refl 8)] at hwithin
  have hindex := tableIndex_rest hj hbefore hwithin
  have hcore : selwCore x k = 8 * j +
      (selectTable (tableIndex (k - countBefore (prefixCounts x) j)) (byteLane x j)).val := by
    simp only [selwCore, hbyte]
  generalize tableIndex (k - countBefore (prefixCounts x) j) = i at *
  obtain ⟨hbit, hbelow⟩ := selectTable_of_lt (i := i) (b := byteLane x j)
    (by rw [hindex]; exact Nat.sub_lt_left_of_lt_add hbefore hwithin)
  generalize selectTable i (byteLane x j) = m at *
  rw [hcore]
  refine ⟨by omega, ?_, ?_⟩
  · rw [getLsbD_byte x j m.isLt, hbit]
  · rw [onesBelow_byte_add x j m.isLt.le, hbelow, hindex, Nat.add_sub_cancel' hbefore]

/-- Settles O48: up to the `k`-th 1 bit and with it there are `k + 1` of them, and up to any bit before it at most
`k`. -/
theorem recipeIsTheClosedForm : Obligations.RecipeIsTheClosedForm := by
  unfold Obligations.RecipeIsTheClosedForm
  intro x k hk
  obtain ⟨hlt, hbit, hbelow⟩ := isKthOne_selwCore hk
  simp only [← popcountBelow_eq_onesBelow] at hbelow
  refine ⟨hlt, ?_, fun m hm => ?_⟩
  · rw [popcount_and_mask x _ hlt, ← popcountBelow_eq_onesBelow, popcountBelow, hbelow, hbit]
    rfl
  · have : popcountBelow x (m + 1) ≤ k.toNat := hbelow ▸ popcountBelow_mono x hm
    rw [popcount_and_mask x _ (by omega), ← popcountBelow_eq_onesBelow]
    omega

end Sys2Proof.Machine
end

section
/-! The select-within-word family (42_select_in_word.md R88 to R92). -/

namespace Sys2Proof.Machine

/-- A command that ends in `commit` completes, with the conditions it flags in STATUS. -/
theorem completes_of_commit_with {i : Instr} {s : State} {rd : Reg} {v : Word} {cs : List Condition}
    {P : Word → Prop} (h : exec i s = .next (commit rd v cs s)) (hP : P v) :
    Completes i s rd (statusWith cs s.status) P :=
  ⟨_, h, by simpa [readReg_commit] using hP, commit_status .., keepsAllBut_commit ..⟩

/-- The 0 bits of a word are the 1 bits of its complement. -/
theorem isKthZero_of_not {v : Word} {k m : Nat} (h : isKthOne (~~~v) k m) : isKthZero v k m := by
  obtain ⟨hm, hbit, hbelow⟩ := h
  refine ⟨hm, by simpa [hm] using hbit, ?_⟩
  rw [← onesBelow_not v m hm.le, hbelow]

section SelectInto

variable {i : Instr} {s : State} {rd : Reg} {w a b c : Word} {inv : Bool}

/-- A select whose precondition holds adds the position of the `b`-th 1 bit of the engine's word to the base. -/
theorem completes_of_selectInto (he : exec i s = .next (selectInto rd w a b c inv s))
    (hb : b.toNat < popcount w) :
    ∃ m, isKthOne w b.toNat m ∧ Completes i s rd s.status fun v => v = c + BitVec.ofNat 64 m := by
  obtain ⟨-, e⟩ | ⟨hnot, -⟩ := selectInto_cases rd w a b c inv s
  · exact ⟨selwCore w b, isKthOne_selwCore hb, completes_of_commit (he.trans (congrArg _ e)) rfl⟩
  · exact absurd hb hnot

/-- A select whose precondition fails flags SELR and adds a free position (42_select_in_word.md R91). -/
theorem completes_of_selectInto_out_of_range
    (he : exec i s = .next (selectInto rd w a b c inv s)) (hb : ¬ b.toNat < popcount w) :
    Completes i s rd (s.status ||| 0b0010#4) fun v => ∃ p, p < 64 ∧ v = c + BitVec.ofNat 64 p := by
  obtain ⟨hlt, -⟩ | ⟨-, e⟩ := selectInto_cases rd w a b c inv s
  · exact absurd hlt hb
  · exact completes_of_commit_with (he.trans (congrArg _ e))
      ⟨_, (Config.selwOor s.draws a b c inv).isLt, by rw [BitVec.ofNat_toNat]⟩

end SelectInto

/-- Settles O32: the engine works on `a`. -/
theorem selwGivesTheKthOne : Obligations.SelwGivesTheKthOne := by
  unfold Obligations.SelwGivesTheKthOne
  intro rd rs1 rs2 rs3 s
  rw [← popcount_eq_onesBelow]
  exact ⟨encodedAs_commandWord (.selw rd rs1 rs2 rs3), completes_of_selectInto rfl,
    completes_of_selectInto_out_of_range rfl⟩

/-- Settles O33: the engine works on the complement of `a`, whose 1 bits are the 0 bits of `a`. -/
theorem selwZeroGivesTheKthZero : Obligations.SelwZeroGivesTheKthZero := by
  unfold Obligations.SelwZeroGivesTheKthZero
  intro rd rs1 rs2 rs3 s
  rw [← onesBelow_not _ 64 (Nat.le_refl 64), ← popcount_eq_onesBelow]
  refine ⟨encodedAs_commandWord (.selw0 rd rs1 rs2 rs3), fun hb => ?_,
    completes_of_selectInto_out_of_range rfl⟩
  obtain ⟨m, hm, hcompletes⟩ := completes_of_selectInto (i := .selw0 rd rs1 rs2 rs3) rfl hb
  exact ⟨m, isKthZero_of_not hm, hcompletes⟩

/-- The byte `a[7:0]` is the lowest byte lane. -/
theorem tableByte_eq (a : Word) : tableByte a = byteLane a 0 := rfl

/-- Bits below 8 are those of the byte `a[7:0]`. -/
theorem onesBelow_tableByte (a : Word) {m : Nat} (hm : m ≤ 8) :
    onesBelow a m = popcountBelow (tableByte a) m := by
  have h := onesBelow_byte_add a 0 hm
  rwa [Nat.mul_zero, Nat.zero_add, ← tableByte_eq, show onesBelow a 0 = 0 from rfl, Nat.zero_add] at h

/-- Settles O34: the table's entry for the byte, by whether the byte has more than `b` mod 8 1 bits. -/
theorem seltabReadsTheTable : Obligations.SeltabReadsTheTable := by
  unfold Obligations.SeltabReadsTheTable
  intro rd rs1 rs2 s
  refine ⟨encodedAs_commandWord (.seltab rd rs1 rs2), completes_of_commit rfl ?_⟩
  generalize operandA rs1 s = a
  rw [← tableIndex_val, onesBelow_tableByte a (Nat.le_refl 8)]
  generalize tableIndex (operandB rs2 s) = i
  rw [zext_toNat ((selectTable i (tableByte a)).isLt.trans (by decide))]
  refine ⟨fun hle => by rw [selectTable_of_le hle]; rfl, fun hlt => ?_⟩
  obtain ⟨hbit, hbelow⟩ := selectTable_of_lt hlt
  generalize selectTable i (tableByte a) = m at *
  refine ⟨m.isLt, m.isLt.trans (by decide), ?_, ?_⟩
  · rw [← hbit, tableByte_eq, ← getLsbD_byte a 0 m.isLt, Nat.mul_zero, Nat.zero_add]
  · rw [onesBelow_tableByte a m.isLt.le, hbelow]

end Sys2Proof.Machine
end

section
/-! The fields of a rel word: what a write of one leaves, and their numbers (43_counter_index.md R104 to R108). -/

namespace Sys2Proof.Machine

@[simp] theorem setField_zero (v x : Word) : setField v 0 x = v := rfl

/-- The bits of a word with a field written; field 0 has no bits (43_counter_index.md R107). -/
theorem getLsbD_setField_any (v x : Word) (k : Fin 8) {i : Nat} (hi : i < 64) :
    (setField v k x).getLsbD i =
      if relLsb k ≤ i ∧ i < relLsb k + relWidth k then x.getLsbD (i - relLsb k)
      else v.getLsbD i := by
  by_cases hk : k = 0
  · subst hk
    rw [setField_zero, if_neg fun ⟨hge, hlt⟩ => Nat.not_lt.mpr hge hlt]
  · exact getLsbD_setField v x k hk i hi

/-- A bit outside the field written stays. -/
theorem getLsbD_setField_outside (v x : Word) (k : Fin 8) {i : Nat}
    (h : i < relLsb k ∨ relLsb k + relWidth k ≤ i) : (setField v k x).getLsbD i = v.getLsbD i := by
  by_cases hi : i < 64
  · rw [getLsbD_setField_any v x k hi, if_neg (by omega)]
  · rw [BitVec.getLsbD_of_ge _ _ (by omega), BitVec.getLsbD_of_ge _ _ (by omega)]

/-- A field is determined by the bits at its place. -/
theorem relField_congr {v v' : Word} {k : Fin 8}
    (h : k ≠ 0 → ∀ i < relWidth k, v.getLsbD (relLsb k + i) = v'.getLsbD (relLsb k + i)) :
    relField v k = relField v' k := by
  by_cases hk : k = 0
  · subst hk; rfl
  · refine BitVec.eq_of_getLsbD_eq fun i _ => ?_
    rw [getLsbD_relField v k hk, getLsbD_relField v' k hk]
    by_cases hi : i < relWidth k
    · rw [h hk i hi]
    · simp [hi]

/-- Settles O51: the field written and the field read have the same place, or share no bit. -/
theorem fieldReadAfterWrite : Obligations.FieldReadAfterWrite := by
  unfold Obligations.FieldReadAfterWrite
  intro v x k j
  refine ⟨fun hk => Nat.eq_of_testBit_eq fun i => ?same, fun hjk => relField_congr fun hj i hi => ?other⟩
  case same =>
    rw [BitVec.testBit_toNat, getLsbD_relField _ k hk, Nat.testBit_mod_two_pow, BitVec.testBit_toNat]
    by_cases hi : i < relWidth k
    · have hend := field_end_le k
      rw [getLsbD_setField_any v x k (by omega), if_pos (by omega), Nat.add_sub_cancel_left,
        Bool.and_comm]
    · simp [hi]
  case other =>
    by_cases hk : k = 0
    · rw [hk, setField_zero]
    · have hdisjoint := fields_disjoint j k hjk hj hk
      exact getLsbD_setField_outside v x k (by omega)

/-- Settles O52: every field ends below bit 59. -/
theorem highRelBitsAreIgnoredAndKept : Obligations.HighRelBitsAreIgnoredAndKept := by
  unfold Obligations.HighRelBitsAreIgnoredAndKept
  refine ⟨fun v v' q h => ?_, fun v x k i hi =>
    getLsbD_setField_outside v x k (.inr ((field_end_le k).trans hi))⟩
  have hfield : relField v = relField v' := funext fun k =>
    relField_congr fun _ i hi => h _ (by have := field_end_le k; omega)
  have hfield0 : relField0 v = relField0 v' := funext fun k => by
    unfold relField0; rw [hfield]
  rw [hfield, hfield0]
  exact ⟨fun _ => ⟨rfl, rfl⟩, rfl, rfl⟩

/-- A shift to the right divides. -/
theorem toNat_ushiftRight_eq_div (x : Word) (n : Nat) : (x >>> n).toNat = x.toNat / 2 ^ n := by
  rw [BitVec.toNat_ushiftRight, Nat.shiftRight_eq_div_pow]

/-- The complement of a field as a number. -/
theorem relField0_toNat (v : Word) (k : Fin 8) : (relField0 v k).toNat = relZeros v k.val := by
  have hlt : relCount v k.val < 2 ^ 64 := relField_toNat v k ▸ (relField v k).isLt
  unfold relField0 relZeros
  rw [BitVec.toNat_sub, BitVec.toNat_ofNat, relField_toNat]
  omega

/-- A value is too wide for a stored field from 2 to the width on (43_counter_index.md R112, R113). -/
theorem fieldOverflow_iff (k : Fin 8) (x : Word) :
    fieldOverflow k x = true ↔ k.val ≠ 0 ∧ 2 ^ relWidth k ≤ x.toNat := by
  have hshift : x >>> relWidth k = 0#64 ↔ x.toNat < 2 ^ relWidth k := by
    rw [← BitVec.toNat_inj, toNat_ushiftRight_eq_div]
    exact Nat.div_eq_zero_iff_lt (Nat.two_pow_pos _)
  unfold fieldOverflow
  rw [Bool.and_eq_true, bne_iff_ne, bne_iff_ne, Ne, Ne, hshift, Nat.not_lt, Fin.ext_iff]
  rfl

end Sys2Proof.Machine
end

section
/-! The comparison tree (43_counter_index.md R117, R118). -/

namespace Sys2Proof.Machine

/-- The tree over words makes the choice of the tree over their numbers (43_counter_index.md R117). -/
theorem phaseCTree_val {t : Fin 8 → Word} {T : Nat → Nat} (h : ∀ k, (t k).toNat = T k.val)
    (q : Word) : (phaseCTree t q).val = phaseCChoice T q.toNat := by
  have hlt (k : Fin 8) : q < t k ↔ q.toNat < T k.val := by rw [BitVec.lt_def, h]
  simp only [phaseCTree, phaseCChoice, hlt, apply_ite Fin.val]
  rfl

/-- Where thresholds do not decrease, one at most `q` whose next is above `q` is the last that is. -/
theorem largest_of_next_above {T : Fin 8 → Word} {q : Word}
    (hmono : ∀ i j : Fin 8, i ≤ j → T i ≤ T j) {j m : Fin 8} (hle : T j ≤ q) (hlt : q < T m)
    (hm : m.val = j.val + 1) :
    T j ≤ q ∧ ∀ i : Fin 8, j < i → q < T i :=
  ⟨hle, fun i hi => Nat.lt_of_lt_of_le hlt (hmono m i (Fin.le_def.mpr (hm ▸ hi)))⟩

/-- Settles O50: the comparisons on a leaf's path say that its threshold is at most `q` and the next one above `q`. -/
theorem treeGivesTheLargestThreshold : Obligations.TreeGivesTheLargestThreshold := by
  unfold Obligations.TreeGivesTheLargestThreshold
  intro T q hzero hmono
  have hle0 : T 0 ≤ q := by rw [hzero]; exact Nat.zero_le _
  unfold phaseCTree
  split_ifs with h4 h2 h1 h3 h6 h5 h7
  · exact largest_of_next_above hmono hle0 h1 rfl
  · exact largest_of_next_above hmono (BitVec.not_lt.mp h1) h2 rfl
  · exact largest_of_next_above hmono (BitVec.not_lt.mp h2) h3 rfl
  · exact largest_of_next_above hmono (BitVec.not_lt.mp h3) h4 rfl
  · exact largest_of_next_above hmono (BitVec.not_lt.mp h4) h5 rfl
  · exact largest_of_next_above hmono (BitVec.not_lt.mp h5) h6 rfl
  · exact largest_of_next_above hmono (BitVec.not_lt.mp h6) h7 rfl
  · exact ⟨BitVec.not_lt.mp h7, fun j hj => absurd (Fin.le_last j) (Fin.not_le.mpr hj)⟩

end Sys2Proof.Machine
end

section
/-! The 0-forms as complements of the 1-forms (43_counter_index.md R108, R116, R126). -/

namespace Sys2Proof.Machine

/-- The 0 bits of `w` below the offset, counted as `r` minus its 1 bits there (41_popcount.md R84). -/
theorem zext_zeros_below_offset (w b : Word) :
    zext (popcount (~~~w &&& mask (bitOffset b))) =
      zext (bitOffset b) - zext (popcount (w &&& mask (bitOffset b))) := by
  rw [popcount_and_mask_bitOffset, popcount_and_mask_bitOffset,
    onesBelow_not _ _ (Nat.mod_lt _ (by decide)).le, bitOffset_eq_mod]
  have hsum := onesBelow_add_zerosBelow w (b.toNat % 64)
  unfold zext
  rw [eq_sub_iff_add_eq, ← BitVec.ofNat_add, Nat.add_comm, hsum]

/-- A bit position is its L-block's start, its S-block's start in the L-block, and its offset (43_counter_index.md R100
to R103). -/
theorem position_split (i : Word) :
    (i >>> 9) <<< 9 + BitVec.ofNat 64 (64 * (fieldIndex (i >>> 6)).val) + zext (bitOffset i) = i := by
  apply BitVec.eq_of_toNat_eq
  simp only [zext, fieldIndex_val, bitOffset_eq_mod, BitVec.toNat_add, BitVec.toNat_ofNat,
    BitVec.toNat_shiftLeft, toNat_ushiftRight_eq_div, Nat.shiftLeft_eq]
  omega

/-- Settles O53: each 0-form is its part of the position minus its 1-form, and the parts sum to the position. -/
theorem zeroCountsSumToTheComplement : Obligations.ZeroCountsSumToTheComplement := by
  unfold Obligations.ZeroCountsSumToTheComplement
  intro i abs rel w
  rw [zext_zeros_below_offset, absZeros, relField0, ← add_sub_add_comm, ← add_sub_add_comm,
    position_split]

end Sys2Proof.Machine
end

section
/-! The counter-index family (43_counter_index.md R100 to R121). -/

namespace Sys2Proof.Machine

/-- Settles O39: `RELGET` writes the field, whose number is the table's. -/
theorem relgetReadsTheField : Obligations.RelgetReadsTheField := by
  unfold Obligations.RelgetReadsTheField
  intro rd rs1 rs2 s
  refine ⟨encodedAs_commandWord (.relget rd rs1 rs2), completes_of_commit rfl ?_⟩
  rw [relField_toNat, fieldIndex_val]

/-- Settles O40: as for `RELGET`, on the complement of the field. -/
theorem relgetZeroReadsTheComplement : Obligations.RelgetZeroReadsTheComplement := by
  unfold Obligations.RelgetZeroReadsTheComplement
  intro rd rs1 rs2 s
  refine ⟨encodedAs_commandWord (.relget0 rd rs1 rs2), completes_of_commit rfl ?_⟩
  rw [relField0_toNat, fieldIndex_val]

/-- STATUS after `RELSET`: FOVF is set where the value is too wide (43_counter_index.md R113). -/
theorem statusWith_fieldOverflow (k : Fin 8) (x : Word) (st : BitVec 4) :
    statusWith (if fieldOverflow k x then [.fovf] else []) st =
      if k.val ≠ 0 ∧ 2 ^ relWidth k ≤ x.toNat then st ||| 0b0100#4 else st := by
  simp only [← fieldOverflow_iff]
  split <;> rfl

/-- Settles O41: the written field bit by bit, with field 0 empty. -/
theorem relsetWritesTheField : Obligations.RelsetWritesTheField := by
  unfold Obligations.RelsetWritesTheField
  intro rd rs1 rs2 rs3 s
  rw [← fieldIndex_val, relTable_eq, ← statusWith_fieldOverflow]
  exact ⟨encodedAs_commandWord (.relset rd rs1 rs2 rs3),
    completes_of_commit_with rfl fun _ hj => getLsbD_setField_any _ _ _ hj⟩

/-- A tree's choice as a register holds it. -/
theorem zext_phaseCTree_toNat {t : Fin 8 → Word} {T : Nat → Nat}
    (h : ∀ k, (t k).toNat = T k.val) (q : Word) :
    (zext (phaseCTree t q).val).toNat = phaseCChoice T q.toNat := by
  rw [zext_toNat ((phaseCTree t q).isLt.trans (by decide)), phaseCTree_val h]

/-- Settles O42: the thresholds are the fields' numbers. -/
theorem subblkIsTheTreesChoice : Obligations.SubblkIsTheTreesChoice := by
  unfold Obligations.SubblkIsTheTreesChoice
  intro rd rs1 rs2 s
  exact ⟨encodedAs_commandWord (.subblk rd rs1 rs2),
    completes_of_commit rfl (zext_phaseCTree_toNat (relField_toNat _) _)⟩

/-- Settles O43: the thresholds are the complemented fields' numbers. -/
theorem subblkZeroIsTheTreesChoice : Obligations.SubblkZeroIsTheTreesChoice := by
  unfold Obligations.SubblkZeroIsTheTreesChoice
  intro rd rs1 rs2 s
  exact ⟨encodedAs_commandWord (.subblk0 rd rs1 rs2),
    completes_of_commit rfl (zext_phaseCTree_toNat (relField0_toNat _) _)⟩

/-- `512*b - a`, the bits of `b` that the shift drops included (43_counter_index.md R116). -/
theorem absZeros_toNat (abs rankId : Word) :
    ((absZeros abs rankId).toNat : Int) = (Config.L * rankId.toNat - abs.toNat) % 2 ^ 64 := by
  unfold absZeros Config.L
  rw [BitVec.toNat_sub, BitVec.toNat_shiftLeft, Nat.shiftLeft_eq]
  omega

/-- Settles O45: the value is `absZeros`. -/
theorem absgetZeroIsTheComplement : Obligations.AbsgetZeroIsTheComplement := by
  unfold Obligations.AbsgetZeroIsTheComplement
  intro rd rs1 rs2 s
  exact ⟨encodedAs_commandWord (.absget0 rd rs1 rs2), completes_of_commit rfl (absZeros_toNat _ _)⟩

/-- Settles O35: a shift by 9 divides by 512. -/
theorem lblkDividesByL : Obligations.LblkDividesByL := by
  unfold Obligations.LblkDividesByL
  intro rd rs1 s
  exact ⟨encodedAs_commandWord (.lblk rd rs1), completes_of_commit rfl (toNat_ushiftRight_eq_div _ 9)⟩

/-- Settles O36: a shift by 6 divides by 64. -/
theorem sblkDividesByS : Obligations.SblkDividesByS := by
  unfold Obligations.SblkDividesByS
  intro rd rs1 s
  exact ⟨encodedAs_commandWord (.sblk rd rs1), completes_of_commit rfl (toNat_ushiftRight_eq_div _ 6)⟩

/-- Settles O37: the low 6 bits are the remainder by 64. -/
theorem soffIsTheRemainder : Obligations.SoffIsTheRemainder := by
  unfold Obligations.SoffIsTheRemainder
  intro rd rs1 s
  refine ⟨encodedAs_commandWord (.soff rd rs1), completes_of_commit rfl ?_⟩
  exact (BitVec.toNat_and ..).trans (Nat.and_two_pow_sub_one_eq_mod _ 6)

/-- Settles O38: the low 3 bits of the S-block index are its remainder by 8. -/
theorem phaseIsTheBlockInItsLBlock : Obligations.PhaseIsTheBlockInItsLBlock := by
  unfold Obligations.PhaseIsTheBlockInItsLBlock
  intro rd rs1 s
  refine ⟨encodedAs_commandWord (.phase rd rs1), completes_of_commit rfl ?_⟩
  rw [BitVec.toNat_and, toNat_ushiftRight_eq_div]
  exact Nat.and_two_pow_sub_one_eq_mod _ 3

/-- Settles O44: the value is `a` itself. -/
theorem absgetCopies : Obligations.AbsgetCopies := by
  unfold Obligations.AbsgetCopies
  intro rd rs1 s
  exact ⟨encodedAs_commandWord (.absget rd rs1), completes_of_commit rfl rfl⟩

end Sys2Proof.Machine
end

section
/-! The integer family (44_integer.md R135, R136). -/

namespace Sys2Proof.Machine

/-- The difference of two words, as integers modulo 2^64 (44_integer.md R136). -/
theorem toNat_sub_eq_emod (a b : Word) : ((a - b).toNat : Int) = ((a.toNat : Int) - b.toNat) % 2 ^ 64 := by
  rw [BitVec.toNat_sub]
  omega

/-- Settles O46: addition of words is addition modulo 2^64. -/
theorem addWraps : Obligations.AddWraps := by
  unfold Obligations.AddWraps
  intro rd rs1 rs2 s
  exact ⟨encodedAs_commandWord (.add rd rs1 rs2), completes_of_commit rfl (BitVec.toNat_add _ _)⟩

/-- Settles O47: subtraction of words is subtraction modulo 2^64. -/
theorem subWraps : Obligations.SubWraps := by
  unfold Obligations.SubWraps
  intro rd rs1 rs2 s
  exact ⟨encodedAs_commandWord (.sub rd rs1 rs2), completes_of_commit rfl (toNat_sub_eq_emod _ _)⟩

end Sys2Proof.Machine
end

section
/-! Which conditions a step newly sets, and that SELR and FOVF come with a write of a register (60_exceptions.md R141 to
R144, R147). -/

namespace Sys2Proof.Machine

/-- Flagging a condition sets its bit and keeps the others. -/
theorem statusHas_flag_iff {c c' : Condition} {s : State} :
    statusHas c (flag c' s) ↔ statusHas c s ∨ c = c' := by
  unfold statusHas
  rw [flag_status, getLsbD_or_conditionMask]
  simp

/-- A STATUS write sets no bit. -/
theorem statusHas_of_clearStatus {c : Condition} {s : State} {d : Word}
    (h : statusHas c (clearStatus d s)) : statusHas c s := by
  unfold statusHas at *
  rw [clearStatus_status, BitVec.getLsbD_and, Bool.and_eq_true] at h
  exact h.1

/-- A command sets no condition, or is a select and sets at most SELR, or is RELSET and sets at most FOVF. -/
theorem exec_sets_at_most_one {i : Instr} {s t : State} (h : exec i s = .next t) :
    (∀ c, statusHas c t → statusHas c s) ∨
    ((mnemonicOf i = .selw ∨ mnemonicOf i = .selw0) ∧
      ∀ c, statusHas c t → statusHas c s ∨ c = .selr) ∨
    (mnemonicOf i = .relset ∧ ∀ c, statusHas c t → statusHas c s ∨ c = .fovf) := by
  obtain ⟨v, e⟩ | ⟨v, hselect, e⟩ | ⟨v, hrelset, e⟩ := exec_cases i s <;> rw [e] at h <;> cases h
  · exact .inl fun c => id
  · exact .inr (.inl ⟨hselect, fun c => (statusHas_flag_iff (s := writeReg _ v s)).mp⟩)
  · exact .inr (.inr ⟨hrelset, fun c => (statusHas_flag_iff (s := writeReg _ v s)).mp⟩)

/-- A step sets no condition, or takes the cause of one condition and sets at most that one. -/
theorem step_sets_at_most_one {s t : State} (h : step s = .next t) :
    (∀ c, statusHas c t → statusHas c s) ∨
    ∃ c', causeOf c' s ∧ ∀ c, statusHas c t → statusHas c s ∨ c = c' := by
  obtain ⟨-, rfl⟩ | ⟨rest, -, rfl⟩ | ⟨a, rest, hs, rfl⟩ | ⟨a, d, rest, r, -, -, rfl⟩ |
    ⟨a, d, rest, hs, hp, rfl⟩ | ⟨d, rest, -, rfl⟩ | ⟨d, rest, hs, hd, rfl⟩ |
    ⟨d, rest, i, hs, hd, he⟩ := step_inv h
  · exact .inl fun c => id
  · exact .inl fun c hc => absurd hc (not_statusHas_of_zero rfl c)
  · cases hp : portSlot a with
    | x r => exact .inl fun c => id
    | cmd => exact .inl fun c => id
    | status => exact .inl fun c => id
    | reserved =>
      exact .inr ⟨.hadr, ⟨a, rest, ten_le_of_reserved hp, .inl hs⟩, fun c => statusHas_flag_iff.mp⟩
  · exact .inl fun c => id
  · exact .inr ⟨.hadr, ⟨a, rest, ten_le_of_reserved hp, .inr ⟨d, hs⟩⟩,
      fun c => statusHas_flag_iff.mp⟩
  · exact .inl fun c => statusHas_of_clearStatus
  · exact .inr ⟨.ill, ⟨d, rest, hs, hd⟩, fun c => statusHas_flag_iff.mp⟩
  · obtain hnone | ⟨hselect, honly⟩ | ⟨hrelset, honly⟩ := exec_sets_at_most_one he
    · exact .inl hnone
    · exact .inr ⟨.selr, ⟨d, rest, i, hs, hd, hselect⟩, honly⟩
    · exact .inr ⟨.fovf, ⟨d, rest, i, hs, hd, hrelset⟩, honly⟩

/-- Settles O21: a step sets at most the one condition whose cause it takes. -/
theorem newConditionsHaveTheirCause : Obligations.NewConditionsHaveTheirCause := by
  unfold Obligations.NewConditionsHaveTheirCause
  intro s t c hstep hold hnew
  obtain hnone | ⟨c₀, hcause, honly⟩ := step_sets_at_most_one hstep
  · exact absurd (hnone c hnew) hold
  · obtain rfl := (honly c hnew).resolve_left hold
    exact ⟨hcause, fun c' hold' hnew' => (honly c' hnew').resolve_left hold'⟩

/-- The cause of SELR and of FOVF is a legal command. -/
theorem command_of_causeOf {s : State} {c : Condition} (hc : c = .selr ∨ c = .fovf)
    (h : causeOf c s) : ∃ d rest i, s.host = .hwrite 0x8#4 d :: rest ∧ decodeData d = .legal i := by
  obtain rfl | rfl := hc
  · obtain ⟨d, rest, i, hs, hd, -⟩ := h
    exact ⟨d, rest, i, hs, hd⟩
  · obtain ⟨d, rest, i, hs, hd, -⟩ := h
    exact ⟨d, rest, i, hs, hd⟩

/-- A step that takes a command leaves its `rd` written. -/
theorem isWritten_destOf_of_step {s t : State} {d : Word} {rest : List HostEvent} {i : Instr}
    (h : step s = .next t) (hs : s.host = .hwrite 0x8#4 d :: rest) (hd : decodeData d = .legal i) :
    isWritten (destOf i) t = true := by
  rw [step_command hs hd (readsOnlySpecified_of_step h)] at h
  exact (keepsAllBut_of_exec h).mark

/-- Where a step that takes no reset changes where a register's contents come from, it has written the register. -/
theorem originOf_of_step {s t : State} (h : step s = .next t) (hreset : ∀ rest, s.host ≠ .reset :: rest)
    (r : Reg) : originOf r t = originOf r s ∨ originOf r t = .written := by
  by_cases hne : originOf r t = originOf r s
  · exact .inl hne
  right
  obtain ⟨a, d, rest, hs, ha⟩ | ⟨d, rest, i, hs, hd, rfl⟩ | ⟨rest, hs⟩ :=
    (registersChangeOnlyWhenWritten s t r h).2 hne
  · rw [step_hwrite_of_register hs ha] at h
    cases h
    rw [originOf_writeReg, if_pos rfl]
  · exact beq_iff_eq.mp (isWritten_destOf_of_step h hs hd)
  · exact absurd hs (hreset rest)

/-- A step keeps every register written that is, or it takes a reset, and then clears STATUS. -/
theorem isWritten_of_step {s t : State} (h : step s = .next t) {r : Reg} (hw : isWritten r s = true) :
    isWritten r t = true ∨ t.status = 0#4 := by
  by_cases hreset : ∃ rest, s.host = .reset :: rest
  · obtain ⟨rest, hs⟩ := hreset
    rw [step_reset hs] at h
    cases h
    exact .inr rfl
  · obtain hsame | hwritten := originOf_of_step h (not_exists.mp hreset) r
    · exact .inl (by rwa [isWritten, hsame])
    · exact .inl (beq_iff_eq.mpr hwritten)

/-- Settles O24: where SELR or FOVF was set before the step, the register written then still is, unless a reset has
cleared STATUS; where the step newly sets one, its cause is a command, which leaves its `rd` written. -/
theorem conditionsComeWithWritesIsKept : Obligations.ConditionsComeWithWritesIsKept := by
  unfold Obligations.ConditionsComeWithWritesIsKept
  intro s t hinv hstep hset
  obtain ⟨c, hc, ht⟩ : ∃ c, (c = .selr ∨ c = .fovf) ∧ statusHas c t :=
    hset.elim (fun h => ⟨_, .inl rfl, h⟩) fun h => ⟨_, .inr rfl, h⟩
  by_cases hold : statusHas c s
  · obtain ⟨r, hr⟩ : ∃ r, isWritten r s = true :=
      hinv (by obtain rfl | rfl := hc; exacts [.inl hold, .inr hold])
    obtain hkept | hzero := isWritten_of_step hstep hr
    · exact ⟨r, hkept⟩
    · exact absurd ht (not_statusHas_of_zero hzero c)
  · obtain ⟨hcause, -⟩ := newConditionsHaveTheirCause s t c hstep hold ht
    obtain ⟨d, rest, i, hs, hd⟩ := command_of_causeOf hc hcause
    exact ⟨destOf i, isWritten_destOf_of_step hstep hs hd⟩

end Sys2Proof.Machine
end

section
/-! Host operations complete in order, and stop only at a read fault (60_exceptions.md R140; 20_memory.md R51; 10_state.md
R34). -/

namespace Sys2Proof.Machine

@[simp] theorem hostRead_draws (p : PortSlot) (s : State) : (hostRead p s).draws = s.draws := by
  cases p <;> rfl

/-- A step counts the host operation it takes, if there is one. -/
theorem draws_of_step {s t : State} (h : step s = .next t) :
    t.draws = s.draws + (s.host.take 1).length := by
  obtain ⟨hs, rfl⟩ | ⟨rest, hs, rfl⟩ | ⟨a, rest, hs, rfl⟩ | ⟨a, d, rest, r, hs, -, rfl⟩ |
    ⟨a, d, rest, hs, -, rfl⟩ | ⟨d, rest, hs, rfl⟩ | ⟨d, rest, hs, -, rfl⟩ |
    ⟨d, rest, i, hs, -, he⟩ := step_inv h
  · simp [hs]
  · simp [hs]
  · simp [hs]
  · simp [hs]
  · simp [hs]
  · simp [hs]
  · simp [hs]
  · rw [(keepsAllBut_of_exec he).draws]; simp [hs]

/-- Settles O17: a step answers a next state, with the first operation off the list and counted, unless it reads an
unspecified register. -/
theorem hostOperationsCompleteOrMeetAReadFault :
    Obligations.HostOperationsCompleteOrMeetAReadFault := by
  unfold Obligations.HostOperationsCompleteOrMeetAReadFault
  intro s
  constructor
  · intro hspec
    obtain ⟨t, hstep⟩ := step_next_of_specified hspec
    exact ⟨t, hstep, host_of_step hstep, draws_of_step hstep⟩
  · intro hunspec
    obtain hfault | ⟨hspec, -⟩ := step_cases s
    · exact hfault
    · exact absurd hspec (by simp [hunspec])

/-- A run whose first step goes on is the run of the other steps. -/
theorem run_succ_of_next {s u : State} (h : step s = .next u) (n : Nat) :
    core.run (n + 1) s = core.run n u := by
  rw [run_succ, h]

/-- A run whose first step stops at a fault is that fault. -/
theorem run_succ_of_fault {s : State} {f : Fault} (h : step s = .fault f) (n : Nat) :
    core.run (n + 1) s = .fault f := by
  rw [run_succ, h]

/-- What is to come after a step and `n` more operations is what comes after `n + 1`. -/
theorem drop_host_of_step {s u : State} (h : step s = .next u) (n : Nat) :
    u.host.drop n = s.host.drop (n + 1) := by
  rw [host_of_step h, List.drop_tail]

/-- Settles O18, by induction on the number of steps: the first step stops at a read fault, or what holds of the run
of the others holds of the whole. -/
theorem runsStopOnlyAtReadFaults : Obligations.RunsStopOnlyAtReadFaults := by
  unfold Obligations.RunsStopOnlyAtReadFaults
  intro n
  induction n with
  | zero => exact fun s => .inl ⟨s, rfl, rfl⟩
  | succ n ih =>
    intro s
    cases hspec : readsOnlySpecified s with
    | false =>
      obtain ⟨r, hr, ho, hfault⟩ := (hostOperationsCompleteOrMeetAReadFault s).2 hspec
      exact .inr ⟨0, n.succ_pos, s, r, rfl, hr, ho, run_succ_of_fault hfault n⟩
    | true =>
      obtain ⟨u, hstep⟩ := step_next_of_specified hspec
      rw [run_succ_of_next hstep, ← drop_host_of_step hstep]
      obtain hend | ⟨k, hk, v, r, hrun, hr, ho, hfault⟩ := ih u
      · exact .inl hend
      · exact .inr ⟨k + 1, Nat.succ_lt_succ hk, v, r, (run_succ_of_next hstep k).trans hrun, hr, ho,
          hfault⟩

/-- A step that takes no reset leaves no register unspecified where none was. -/
theorem specified_of_step {s t : State} (h : step s = .next t)
    (hreset : ∀ rest, s.host ≠ .reset :: rest) (hspec : ∀ r, originOf r s ≠ .unspecified) (r : Reg) :
    originOf r t ≠ .unspecified := by
  obtain hsame | hwritten := originOf_of_step h hreset r
  · exact hsame ▸ hspec r
  · simp [hwritten]

/-- Settles O58, by induction on the number of steps: each goes on, as no register is unspecified, and leaves none so,
as it takes no reset. -/
theorem runsWithoutResetNeverStop : Obligations.RunsWithoutResetNeverStop := by
  unfold Obligations.RunsWithoutResetNeverStop
  intro n
  induction n with
  | zero => exact fun s hspec _ => ⟨s, rfl, rfl, hspec⟩
  | succ n ih =>
    intro s hspec hreset
    obtain ⟨u, hstep⟩ := step_next_of_specified (readsOnlySpecified_of_all hspec)
    have hfirst : ∀ rest, s.host ≠ .reset :: rest := fun rest hs => hreset (by simp [hs])
    have hothers : .reset ∉ u.host.take n := by
      have htail : u.host.take n = (s.host.take (n + 1)).tail := by
        rw [host_of_step hstep, List.tail_take_eq_take_tail, Nat.add_sub_cancel]
      exact fun hmem => hreset (List.mem_of_mem_tail (htail ▸ hmem))
    rw [run_succ_of_next hstep, ← drop_host_of_step hstep]
    exact ih u (specified_of_step hstep hfirst hspec) hothers

end Sys2Proof.Machine
end

section
/-! The steps that run no command: an illegal CMD write, and none to take (60_exceptions.md R141, R156). -/

namespace Sys2Proof.Machine

/-- CMD data is no command where its high half is not 0 or its low half decodes to none (30_encoding.md R66). -/
theorem decodeData_ne_legal {d : Word}
    (h : d.extractLsb' 32 32 ≠ 0#32 ∨ ∀ i, decode (d.extractLsb' 0 32) ≠ .legal i) (i : Instr) :
    decodeData d ≠ .legal i := by
  unfold decodeData
  split
  · rename_i hhigh
    exact h.resolve_left (not_not_intro hhigh) i
  · nofun

/-- A step that takes a CMD write which is no command. -/
theorem step_illegal {s : State} {d : Word} {rest : List HostEvent}
    (hs : s.host = .hwrite 0x8#4 d :: rest) (hd : ∀ i, decodeData d ≠ .legal i) :
    step s = .next (flag .ill (setLastCmd d { s with host := rest, draws := s.draws + 1 })) := by
  have hp : portSlot 0x8#4 = .cmd := by decide
  cases hdec : decodeData d with
  | legal i => exact absurd hdec (hd i)
  | illegal cause =>
    have hreads : registersRead s = [] := by simp [registersRead, hs, hp, hdec]
    rw [← taken_of_no_reads hreads]
    refine step_of_none (readsOnlySpecified_of_none hreads) ?_
    simp only [takeHostEvent, hs, performEvent, hp, hostWrite, issueCommand, hdec]

/-- Settles O7: either cause makes the data no command, and such a write sets LASTCMD and flags ILL. -/
theorem illegalCommandSetsOnlyIll : Obligations.IllegalCommandSetsOnlyIll := by
  unfold Obligations.IllegalCommandSetsOnlyIll
  intro s d rest hs hd
  exact step_illegal hs (decodeData_ne_legal hd)

/-- Settles O12: with no operation to take, no register is read and the state stays. -/
theorem idleUnitHoldsItsState : Obligations.IdleUnitHoldsItsState := by
  unfold Obligations.IdleUnitHoldsItsState
  intro s hs
  have hreads : registersRead s = [] := by simp [registersRead, hs]
  exact step_of_none (readsOnlySpecified_of_none hreads) (by simp only [takeHostEvent, hs])

end Sys2Proof.Machine
end
